-- ==== Sys2Proof/Word.lean ====
section
/-!
DEFINITION. The word types of Turtle16 CORE (spec 00_scope.md R7, R9, R10). `BitVec` arithmetic wraps modulo `2^width`, which
is what R10 asks of every 16-bit value; bit 0 is the least significant bit (R9).
-/

namespace Sys2Proof

/-- `Word16` (R10): every register, operand, address, ALU result and program-counter value. -/
abbrev Word := BitVec 16

/-- One byte lane of a register (R12). Memory has no bytes (R53). -/
abbrev Byte := BitVec 8

/-- A register index, always a 3-bit field of an instruction (10_state.md R22). -/
abbrev RegIdx := BitVec 3

/-- A control word: 23 named signals (30_encoding.md R85). The type leaves no room for a wider one (R272). -/
abbrev CtlWord := BitVec 23

/-- A decode table: one control word for each 9-bit address, total by its type (30_encoding.md R88, R89). -/
abbrev DecodeTable := BitVec 9 → CtlWord

end Sys2Proof
end

