-- ==== Sys2Proof/Syntax.lean ====
section
/-!
DEFINITION. The instructions: one constructor for each row of spec/opcode_table.json, with the fields the row's format
gives it (spec 30_encoding.md R71 to R80). Ignored bits have no effect (R84) and are no part of an instruction; register
indices and immediates are typed by their field widths, so every term is an instruction some word encodes.
-/

namespace Sys2Proof

/-- The instruction set of 30_encoding.md R82. Operands stand in the order of the assembler syntax of R94: destination,
sources, immediate; for `store`, the data register `B`, the base register `A`, the displacement. -/
inductive Instr where
  | nop                                         -- X
  | hlt                                         -- X
  | load (c a : RegIdx) (imm : BitVec 5)        -- RRI
  | store (b a : RegIdx) (imm : BitVec 5)       -- IRR, the immediate split around A and B
  | li (c : RegIdx) (imm : BitVec 8)            -- RII
  | lui (c : RegIdx) (imm : BitVec 8)           -- RII
  | cmp (a b : RegIdx)                          -- XRR
  | add (c a b : RegIdx)                        -- RRR
  | sub (c a b : RegIdx)                        -- RRR
  | and (c a b : RegIdx)                        -- RRR
  | or (c a b : RegIdx)                         -- RRR
  | xor (c a b : RegIdx)                        -- RRR
  | not (c a : RegIdx)                          -- RRR with B ignored
  | cmpi (a : RegIdx) (imm : BitVec 5)          -- XRI
  | addi (c a : RegIdx) (imm : BitVec 5)        -- RRI
  | subi (c a : RegIdx) (imm : BitVec 5)        -- RRI
  | andi (c a : RegIdx) (imm : BitVec 5)        -- RRI
  | ori (c a : RegIdx) (imm : BitVec 5)         -- RRI
  | xori (c a : RegIdx) (imm : BitVec 5)        -- RRI
  | unused19                                    -- X, no mnemonic (R262)
  | jmp (imm : BitVec 11)                       -- III
  | jr (a : RegIdx) (imm : BitVec 5)            -- XRI
  | jalr (c a : RegIdx) (imm : BitVec 5)        -- RRI
  | unused23                                    -- X, no mnemonic (R262)
  | beq (imm : BitVec 11)                       -- III
  | bne (imm : BitVec 11)                       -- III
  | blt (imm : BitVec 11)                       -- III
  | bgt (imm : BitVec 11)                       -- III
  | bltu (imm : BitVec 11)                      -- III
  | bgtu (imm : BitVec 11)                      -- III
  | adc (c a b : RegIdx)                        -- RRR
  | sbc (c a b : RegIdx)                        -- RRR
  deriving DecidableEq, Repr

end Sys2Proof
end

