-- ==== Sys2Proof/Config.lean ====
section
/-!
DEFINITION. What an implementation or its environment fixes: the default values of the parameters of spec 00_scope.md R8
and the environment's convention for unlisted words.
-/

namespace Sys2Proof

/-- What an address reads as where no word is listed: the default environment's convention (20_memory.md R57,
92_eei_decisions.md D27 and D40). Log entry 3. -/
def Config.unlistedWord : Word := 0x0000

/-- How many addresses each port has: 65536 (20_memory.md R51). -/
def Config.addressCount : Nat := 65536

/-- The default of `RESET_CYCLES` (00_scope.md R8; 70_reset_and_hazards.md R302; D21). Log entry 18. -/
def Config.resetCycles : Nat := 4

/-- The least admitted `RESET_CYCLES` (70_reset_and_hazards.md R302; D21). Log entry 18. -/
def Config.minResetCycles : Nat := 3

/-- Where fetching starts after power-on and after reset (10_state.md R40). -/
def Config.entryPoint : Word := 0x0000

end Sys2Proof
end

