-- ==== Sys2Proof/Machine/ControlWord.lean ====
section
/-!
DEFINITION. The control word: its signals by name, the two- and three-bit groups, and the NOP control word
(spec 30_encoding.md R85 to R87, 10_state.md R35). The bit numbers are the spec's decision D2, the polarity D3, the group
order D4 (log entry 8).
-/

namespace Sys2Proof

/-- Bit 0, "halt". -/
def CtlWord.hlt (cw : CtlWord) : Bool := cw.getLsbD 0
/-- Bits 2 and 1 read as one number, the `B` line high (R87): which store operand. -/
def CtlWord.selStoreOp (cw : CtlWord) : BitVec 2 := cw.extractLsb' 1 2
/-- Bits 4 and 3 read as one number, the `B` line high (R87): which right operand. -/
def CtlWord.selRightOp (cw : CtlWord) : BitVec 2 := cw.extractLsb' 3 2
/-- Bit 5, "flag-inhibit (suppresses flag update this cycle)". -/
def CtlWord.fi (cw : CtlWord) : Bool := cw.getLsbD 5
/-- Bit 6, "ALU carry-in". -/
def CtlWord.c0 (cw : CtlWord) : Bool := cw.getLsbD 6
/-- Bits 9 to 7: the ALU operation `I = 4 * I2 + 2 * I1 + I0` (R87). -/
def CtlWord.aluOp (cw : CtlWord) : BitVec 3 := cw.extractLsb' 7 3
/-- Bit 10, the enable of the ALU's left input (40_pipeline.md R127). -/
def CtlWord.rs0 (cw : CtlWord) : Bool := cw.getLsbD 10
/-- Bit 11, the enable of the ALU's right input (40_pipeline.md R127). -/
def CtlWord.rs1 (cw : CtlWord) : Bool := cw.getLsbD 11
/-- Bit 12, "jump-enable". -/
def CtlWord.j (cw : CtlWord) : Bool := cw.getLsbD 12
/-- Bit 13, "jump-absolute". -/
def CtlWord.jabs (cw : CtlWord) : Bool := cw.getLsbD 13
/-- Bit 14, "memory-load-enable". -/
def CtlWord.memLoad (cw : CtlWord) : Bool := cw.getLsbD 14
/-- Bit 15, "memory-store-enable". -/
def CtlWord.memStore (cw : CtlWord) : Bool := cw.getLsbD 15
/-- Bit 16, "assert-store-operand": required with `memStore` (W2), no other effect (R124). -/
def CtlWord.assertStoreOp (cw : CtlWord) : Bool := cw.getLsbD 16
/-- Bit 17, `WriteBackSrcFlag`: the write-back source is the store operand (40_pipeline.md R121; D10, log entry 11). -/
def CtlWord.writeBackSrcFlag (cw : CtlWord) : Bool := cw.getLsbD 17
/-- Bit 18, low-byte write enable. -/
def CtlWord.wrl (cw : CtlWord) : Bool := cw.getLsbD 18
/-- Bit 19, high-byte write enable. -/
def CtlWord.wrh (cw : CtlWord) : Bool := cw.getLsbD 19
/-- Bit 20, whole-register write enable. -/
def CtlWord.wben (cw : CtlWord) : Bool := cw.getLsbD 20
/-- Bit 21, hint that the left operand is unused. -/
def CtlWord.leftUnused (cw : CtlWord) : Bool := cw.getLsbD 21
/-- Bit 22, hint that the right operand is unused. -/
def CtlWord.rightUnused (cw : CtlWord) : Bool := cw.getLsbD 22

/-- `lo_en` of 40_pipeline.md R122: the low byte of the destination is written. -/
def CtlWord.writesLo (cw : CtlWord) : Bool := cw.wben || cw.wrl
/-- `hi_en` of 40_pipeline.md R122: the high byte of the destination is written. -/
def CtlWord.writesHi (cw : CtlWord) : Bool := cw.wben || cw.wrh

/-- `NOPCW` (10_state.md R35): `FI` and both hints asserted, every other signal deasserted. -/
def nopcw : CtlWord := 0x600020

end Sys2Proof
end

