-- ==== Sys2Proof/WellFormed.lean ====
section
/-!
DEFINITION. The well-formedness checks the spec states: a decode table (30_encoding.md R90, W1 to W4), the number of reset
cycles (70_reset_and_hazards.md R302), and the ranges of operands as the assembler writes them (30_encoding.md R94, R96).
A term of `Instr` needs no check of its own: its fields have exactly the widths of the encoding (10_state.md R22).
-/

namespace Sys2Proof

/-- W1 of R90: not both a load and a store. -/
def CtlWord.w1 (cw : CtlWord) : Bool := !(cw.memLoad && cw.memStore)

/-- W2 of R90: a store asserts the store operand. -/
def CtlWord.w2 (cw : CtlWord) : Bool := !cw.memStore || cw.assertStoreOp

/-- W3 of R90, for an entry of opcode 0: `FI` asserted and no effect. -/
def CtlWord.w3 (cw : CtlWord) : Bool :=
  cw.fi && !(cw.hlt || cw.j || cw.memLoad || cw.memStore || cw.wrl || cw.wrh || cw.wben)

/-- W4 of R90: a hint stands only where the operand's value reaches nothing observable. -/
def CtlWord.w4 (cw : CtlWord) : Bool :=
  (!cw.leftUnused || !cw.rs0) &&
  (!cw.rightUnused ||
    (!(cw.selRightOp == 0 && cw.rs1) &&
     !(cw.selStoreOp == 0 &&
        (cw.memStore || (cw.writeBackSrcFlag && (cw.wrl || cw.wrh || cw.wben))))))

/-- One table entry meets R90. -/
def entryWellFormed (k : BitVec 9) (cw : CtlWord) : Bool :=
  cw.w1 && cw.w2 && (k.extractLsb' 0 5 != 0 || cw.w3) && cw.w4

/-- R90: every one of the 512 entries meets W1 to W4. -/
def tableWellFormed (dt : DecodeTable) : Bool :=
  (List.range 512).all fun k => entryWellFormed (BitVec.ofNat 9 k) (dt (BitVec.ofNat 9 k))

/-- R302: `RESET_CYCLES` is at least 3. -/
def resetCyclesOk (n : Nat) : Bool := Config.minResetCycles ≤ n

/-- R94: an `imm5` is written as a number in -16 to 15. -/
def imm5InRange (n : Int) : Bool := decide (-16 ≤ n ∧ n ≤ 15)

/-- R94: an `imm8` is written as a number in -128 to 255. -/
def imm8InRange (n : Int) : Bool := decide (-128 ≤ n ∧ n ≤ 255)

/-- R94: an `imm11` is written as a number in -1024 to 1023. -/
def imm11InRange (n : Int) : Bool := decide (-1024 ≤ n ∧ n ≤ 1023)

/-- R96: a relative jump at `p` reaches `target`: the difference from `p + 2`, read as a signed word, is in range. -/
def displacementInRange (p target : Word) : Bool := imm11InRange (target - (p + 2)).toInt

end Sys2Proof
end

