-- ==== Sys2Proof/Decode.lean ====
section
/-!
DEFINITION. Instruction words: the fields (spec 30_encoding.md R71), the decoder (opcode map R82, formats R72 to R80), the
encoder (the canonical words of R94), and the assembler's immediates (R94, R96). Every word decodes (R83), so the decoder
is total and refuses nothing. The opcode numbers other than NOP's are from general knowledge (R82, D1; log entry 7).
-/

namespace Sys2Proof

/-- `ins[15:11]`. -/
def opcode (w : Word) : BitVec 5 := w.extractLsb' 11 5
/-- `C = ins[10:8]`, the destination field. -/
def fieldC (w : Word) : RegIdx := w.extractLsb' 8 3
/-- `A = ins[7:5]`, the first source field. -/
def fieldA (w : Word) : RegIdx := w.extractLsb' 5 3
/-- `B = ins[4:2]`, the second source field. -/
def fieldB (w : Word) : RegIdx := w.extractLsb' 2 3
/-- `imm5 = ins[4:0]`. -/
def fieldImm5 (w : Word) : BitVec 5 := w.extractLsb' 0 5
/-- `simm5`: `ins[10:8]` above `ins[1:0]`, the split immediate of format IRR (R75). -/
def fieldSimm5 (w : Word) : BitVec 5 := w.extractLsb' 8 3 ++ w.extractLsb' 0 2
/-- `imm8 = ins[7:0]`. -/
def fieldImm8 (w : Word) : BitVec 8 := w.extractLsb' 0 8
/-- `imm11 = ins[10:0]`. -/
def fieldImm11 (w : Word) : BitVec 11 := w.extractLsb' 0 11

/-- The instruction a word stands for: the opcode map of R82 with the fields of each row's format. -/
def decode (w : Word) : Instr :=
  match (opcode w).toNat with
  | 0 => .nop
  | 1 => .hlt
  | 2 => .load (fieldC w) (fieldA w) (fieldImm5 w)
  | 3 => .store (fieldB w) (fieldA w) (fieldSimm5 w)
  | 4 => .li (fieldC w) (fieldImm8 w)
  | 5 => .lui (fieldC w) (fieldImm8 w)
  | 6 => .cmp (fieldA w) (fieldB w)
  | 7 => .add (fieldC w) (fieldA w) (fieldB w)
  | 8 => .sub (fieldC w) (fieldA w) (fieldB w)
  | 9 => .and (fieldC w) (fieldA w) (fieldB w)
  | 10 => .or (fieldC w) (fieldA w) (fieldB w)
  | 11 => .xor (fieldC w) (fieldA w) (fieldB w)
  | 12 => .not (fieldC w) (fieldA w)
  | 13 => .cmpi (fieldA w) (fieldImm5 w)
  | 14 => .addi (fieldC w) (fieldA w) (fieldImm5 w)
  | 15 => .subi (fieldC w) (fieldA w) (fieldImm5 w)
  | 16 => .andi (fieldC w) (fieldA w) (fieldImm5 w)
  | 17 => .ori (fieldC w) (fieldA w) (fieldImm5 w)
  | 18 => .xori (fieldC w) (fieldA w) (fieldImm5 w)
  | 19 => .unused19
  | 20 => .jmp (fieldImm11 w)
  | 21 => .jr (fieldA w) (fieldImm5 w)
  | 22 => .jalr (fieldC w) (fieldA w) (fieldImm5 w)
  | 23 => .unused23
  | 24 => .beq (fieldImm11 w)
  | 25 => .bne (fieldImm11 w)
  | 26 => .blt (fieldImm11 w)
  | 27 => .bgt (fieldImm11 w)
  | 28 => .bltu (fieldImm11 w)
  | 29 => .bgtu (fieldImm11 w)
  | 30 => .adc (fieldC w) (fieldA w) (fieldB w)
  | _ => .sbc (fieldC w) (fieldA w) (fieldB w)   -- 31, the one 5-bit value left

/-- Format X: `ooooo xxxxxxxxxxx`, ignored bits 0 (R72, R84). -/
def formX (op : BitVec 5) : Word := op ++ 0#11
/-- Format RRR: `ooooo ccc aaa bbb xx` (R73). -/
def formRRR (op : BitVec 5) (c a b : RegIdx) : Word := op ++ c ++ a ++ b ++ 0#2
/-- Format RRI: `ooooo ccc aaa iiiii` (R74). -/
def formRRI (op : BitVec 5) (c a : RegIdx) (imm : BitVec 5) : Word := op ++ c ++ a ++ imm
/-- Format IRR: `ooooo iii aaa bbb ii`, the immediate's bits 4 to 2 above its bits 1 to 0 (R75). -/
def formIRR (op : BitVec 5) (b a : RegIdx) (imm : BitVec 5) : Word :=
  op ++ imm.extractLsb' 2 3 ++ a ++ b ++ imm.extractLsb' 0 2
/-- Format RII: `ooooo ccc iiiiiiii` (R76). -/
def formRII (op : BitVec 5) (c : RegIdx) (imm : BitVec 8) : Word := op ++ c ++ imm
/-- Format III: `ooooo iiiiiiiiiii` (R77). -/
def formIII (op : BitVec 5) (imm : BitVec 11) : Word := op ++ imm
/-- Format XRI: `ooooo xxx aaa iiiii` (R78). -/
def formXRI (op : BitVec 5) (a : RegIdx) (imm : BitVec 5) : Word := op ++ 0#3 ++ a ++ imm
/-- Format XRR: `ooooo xxx aaa bbb xx` (R79). -/
def formXRR (op : BitVec 5) (a b : RegIdx) : Word := op ++ 0#3 ++ a ++ b ++ 0#2
/-- Format XRX, NOT's layout: `ooooo ccc aaa xxxxx` (R80, D35). -/
def formXRX (op : BitVec 5) (c a : RegIdx) : Word := op ++ c ++ a ++ 0#5

/-- The canonical word of an instruction: the table of R94, every ignored bit 0 (R84). -/
def encode : Instr → Word
  | .nop => formX 0
  | .hlt => formX 1
  | .load c a imm => formRRI 2 c a imm
  | .store b a imm => formIRR 3 b a imm
  | .li c imm => formRII 4 c imm
  | .lui c imm => formRII 5 c imm
  | .cmp a b => formXRR 6 a b
  | .add c a b => formRRR 7 c a b
  | .sub c a b => formRRR 8 c a b
  | .and c a b => formRRR 9 c a b
  | .or c a b => formRRR 10 c a b
  | .xor c a b => formRRR 11 c a b
  | .not c a => formXRX 12 c a
  | .cmpi a imm => formXRI 13 a imm
  | .addi c a imm => formRRI 14 c a imm
  | .subi c a imm => formRRI 15 c a imm
  | .andi c a imm => formRRI 16 c a imm
  | .ori c a imm => formRRI 17 c a imm
  | .xori c a imm => formRRI 18 c a imm
  | .unused19 => formX 19
  | .jmp imm => formIII 20 imm
  | .jr a imm => formXRI 21 a imm
  | .jalr c a imm => formRRI 22 c a imm
  | .unused23 => formX 23
  | .beq imm => formIII 24 imm
  | .bne imm => formIII 25 imm
  | .blt imm => formIII 26 imm
  | .bgt imm => formIII 27 imm
  | .bltu imm => formIII 28 imm
  | .bgtu imm => formIII 29 imm
  | .adc c a b => formRRR 30 c a b
  | .sbc c a b => formRRR 31 c a b

/-- The bits of a word that its format does not ignore, by opcode: the bits that are not `x` in the layouts of R72 to R80
and in the `encoding` column of spec/opcode_table.json. -/
def usedBits (w : Word) : Word :=
  match (opcode w).toNat with
  | 0 | 1 | 19 | 23 => 0xF800
  | 6 => 0xF8FC
  | 7 | 8 | 9 | 10 | 11 | 30 | 31 => 0xFFFC
  | 12 => 0xFFE0
  | 13 | 21 => 0xF8FF
  | _ => 0xFFFF

/-- What the decoder reads from an instruction whose table bits are `w`, the bits above `nbits` zero. One instruction is
one 16-bit word (R70), so a longer pattern is no instruction. Log entry 29. -/
def decodeTableWord (nbits w : Nat) : Option Instr :=
  if nbits ≤ 16 then some (decode (BitVec.ofNat 16 (w % 2 ^ nbits))) else none

/-- The 5 bits of a written `imm5` (R94), where it is in range. -/
def assembleImm5 (n : Int) : Option (BitVec 5) := if imm5InRange n then some (BitVec.ofInt 5 n) else none

/-- The low 8 bits of a written `imm8` (R94), where it is in range. -/
def assembleImm8 (n : Int) : Option (BitVec 8) := if imm8InRange n then some (BitVec.ofInt 8 n) else none

/-- The 11 bits of a written `imm11` (R94), where it is in range. -/
def assembleImm11 (n : Int) : Option (BitVec 11) := if imm11InRange n then some (BitVec.ofInt 11 n) else none

/-- R96: the displacement a relative jump at `p` to `target` is assembled with, `(T - (p + 2)) mod 2^11`. -/
def assembleDisplacement (p target : Word) : Option (BitVec 11) :=
  if displacementInRange p target then some ((target - (p + 2)).setWidth 11) else none

end Sys2Proof
end

