-- ==== Sys2Proof/Machine/State.lean ====
section
/-!
DEFINITION. The state of Turtle16 CORE as plain data (spec 10_state.md), the reasons a step can stop, and the power-on state.
INVENTORY.md lists every field with the rule that names it.
-/

namespace Sys2Proof.Machine

/-- The flags register `FL = (N, C, Z, V)` (R26): four bits, not addressable and named by no operand (R28). -/
structure Flags where
  n : Bool
  c : Bool
  z : Bool
  v : Bool
  deriving DecidableEq, Repr

/-- The latch from IF to ID (R30). -/
structure IFID where
  ins : Word
  pc : Word
  deriving DecidableEq, Repr

/-- The latch from ID to EX (R31). -/
structure IDEX where
  ctl : CtlWord
  a : Word
  b : Word
  ins : Word
  pc : Word
  deriving DecidableEq, Repr

/-- The latch from EX to MEM (R32). -/
structure EXMEM where
  ctl : CtlWord
  y : Word
  sop : Word
  selC : RegIdx
  pc : Word
  deriving DecidableEq, Repr

/-- The latch from MEM to WB (R33). -/
structure MEMWB where
  ctl : CtlWord
  y : Word
  sop : Word
  selC : RegIdx
  pc : Word
  deriving DecidableEq, Repr

/-- One call of a port (20_memory.md R50, 00_scope.md R13): the observable behaviour of the core (R59, R63, R322). -/
inductive PortCall where
  /-- `IFetch(addr)`. -/
  | fetch (addr : Word)
  /-- `MemRead(addr, 1)` and the word the environment answered. -/
  | load (addr value : Word)
  /-- `MemWrite(addr, 1, value)`. -/
  | store (addr value : Word)
  deriving DecidableEq, Repr

/-- One memory word at an address. The addressable unit is a 16-bit word and there are no bytes (20_memory.md R51, R53;
log entry 2). -/
abbrev Cell := Nat × Word

/-- A space of 65536 words as the list of the cells that differ from `Config.unlistedWord`, addresses strictly rising. -/
abbrev Memory := List Cell

/-- Everything the spec gives the machine, the environment's two memories, and the core's outputs. -/
structure State where
  /-- `R[0]` to `R[7]` (R20). -/
  regs : Vector Word 8
  /-- `FL` (R26). -/
  flags : Flags
  /-- `PC`: the fetch address in the pipeline layer, the address of the instruction in the instruction layer (R24). -/
  pc : Word
  ifid : IFID
  idex : IDEX
  exmem : EXMEM
  memwb : MEMWB
  /-- `CYC` (R37): clock cycles, counted by the pipeline layer only. -/
  cyc : Nat
  /-- The words behind the instruction port, the parameter `IMEM` (R38, R52). -/
  imem : Memory
  /-- The words behind the data port in the default environment (R38, R55). -/
  dmem : Memory
  /-- The output `halted_out` (R123) of the last cycle, or "the run ends" (R146) of the last instruction step. -/
  haltedOut : Bool
  /-- The port calls made so far, youngest first (R59, R63). -/
  calls : List PortCall
  deriving DecidableEq, Repr

/-- Why a step faults: for no reason. The core raises no exception of any kind (60_exceptions.md R270, R271, R278; 00_scope.md
R14), so the type is empty; nothing raises one, which is what the spec says of the hardware. Log entry 21. -/
inductive Fault
  deriving DecidableEq, Repr

/-- Why something has no meaning. -/
inductive Refusal where
  /-- An instruction whose meaning is not written yet; raised by `exec`'s arms only (safe: nothing is claimed of it). No arm
  raises it: every instruction has its meaning. -/
  | notModelled (mnemonic : String)
  /-- A decode table that is not well-formed (R90, R272); raised by the driver operations before any cycle runs (safe). -/
  | illFormedTable
  /-- `RESET_CYCLES` below 3 (R302); raised by the reset operations before any cycle runs (safe). -/
  | tooFewResetCycles
  /-- A run that fetches a word it has stored to, in program order or in time, where the environment aliases the two ports (20_memory.md
  R62, 70_reset_and_hazards.md R315; log entry 5); raised by the driver operations only (safe). -/
  | selfModifying
  deriving DecidableEq, Repr

/-- The power-on state (10_state.md R39, R40): zero registers and flags, `PC` at the entry point, NOP-equivalent latches, `CYC`
zero; nothing listed in either memory; no cycle run, so no output and no call yet. -/
def State.reset : State where
  regs := Vector.replicate 8 0x0000
  flags := { n := false, c := false, z := false, v := false }
  pc := Config.entryPoint
  ifid := { ins := 0x0000, pc := 0x0000 }
  idex := { ctl := nopcw, a := 0, b := 0, ins := 0, pc := 0x0000 }
  exmem := { ctl := nopcw, y := 0, sop := 0, selC := 0, pc := 0x0000 }
  memwb := { ctl := nopcw, y := 0, sop := 0, selC := 0, pc := 0x0000 }
  cyc := 0
  imem := []
  dmem := []
  haltedOut := false
  calls := []

end Sys2Proof.Machine
end

