-- ==== Sys2Proof/Machine/Flags.lean ====
section
/-!
DEFINITION. The ALU and its flags (spec 40_pipeline.md R128, R129) and the branch conditions (30_encoding.md R92). The ALU
operation codes are the spec's decision D6, the carry sense and the `C`, `V` of logical operations D8, the branch conditions
D13 (log entries 8 and 10).
-/

namespace Sys2Proof.Machine

/-- What the ALU gives: the result `F` and the flags. -/
structure AluOut where
  f : Word
  flags : Flags
  deriving DecidableEq, Repr

/-- R129: `N = F[15]`, `C = Cout`, `Z = 1` exactly when `F` is zero, `V = Vout`. -/
def aluResult (f : Word) (cout vout : Bool) : AluOut :=
  { f, flags := { n := f.getLsbD 15, c := cout, z := f == 0x0000, v := vout } }

/-- The 17-bit sum of `add3` (R128). -/
def sum17 (x y : Word) (cin : Bool) : BitVec 17 :=
  x.setWidth 17 + y.setWidth 17 + (BitVec.ofBool cin).setWidth 17

/-- `add3(x, y, cin)` of R128 with the flags of R129: result `s[15:0]`, carry `s[16]`, signed overflow when the operands agree
in sign and the result does not. -/
def add3 (x y : Word) (cin : Bool) : AluOut :=
  let s := sum17 x y cin
  let f := s.extractLsb' 0 16
  aluResult f (s.getLsbD 16) (x.getLsbD 15 == y.getLsbD 15 && f.getLsbD 15 != x.getLsbD 15)

/-- A logical or constant operation: `C = 0` and `V = 0` (R128, R129; D8). -/
def logical (f : Word) : AluOut := aluResult f false false

/-- R128: the eight ALU operations on the left and right inputs. -/
def alu (op : BitVec 3) (c0 : Bool) (left right : Word) : AluOut :=
  match op.toNat with
  | 0 => logical 0x0000
  | 1 => add3 right (~~~left) c0
  | 2 => add3 left (~~~right) c0
  | 3 => add3 left right c0
  | 4 => logical (left ^^^ right)
  | 5 => logical (left ||| right)
  | 6 => logical (left &&& right)
  | _ => logical 0xFFFF

/-- BEQ (R92): `Z = 1`. -/
def condBeq (fl : Flags) : Bool := fl.z
/-- BNE (R92): `Z = 0`. -/
def condBne (fl : Flags) : Bool := !fl.z
/-- BLT (R92): `N != V`. -/
def condBlt (fl : Flags) : Bool := fl.n != fl.v
/-- BGT (R92): `Z = 0` and `N = V`. -/
def condBgt (fl : Flags) : Bool := !fl.z && fl.n == fl.v
/-- BLTU (R92): `C = 0`. -/
def condBltu (fl : Flags) : Bool := !fl.c
/-- BGTU (R92): `C = 1` and `Z = 0`. -/
def condBgtu (fl : Flags) : Bool := fl.c && !fl.z

end Sys2Proof.Machine
end

