-- ==== Sys2Proof/Machine/Operands.lean ====
section
/-!
DEFINITION. Operand forms: the immediates of spec 30_encoding.md R81, the right and store operand selects of 40_pipeline.md R125
and R126, and the ALU's input gates of R127. The select codes are the spec's decisions D4, D5, D7 (log entry 8); sign extension of
every `imm5` is D37, of LI's `imm8` D23 (log entry 12).
-/

namespace Sys2Proof.Machine

/-- `sext5` (00_scope.md R11). -/
def sext5 (v : BitVec 5) : Word := v.signExtend 16
/-- `sext8` (R11). -/
def sext8 (v : BitVec 8) : Word := v.signExtend 16
/-- `sext11` (R11). -/
def sext11 (v : BitVec 11) : Word := v.signExtend 16
/-- `I8H` of R81: the immediate in bits 15 to 8, zero below. -/
def imm8High (v : BitVec 8) : Word := v ++ 0#8

/-- `R[i].lo` (00_scope.md R12). -/
def loByte (v : Word) : Byte := v.extractLsb' 0 8
/-- `R[i].hi` (R12). -/
def hiByte (v : Word) : Byte := v.extractLsb' 8 8

/-- The right operand (40_pipeline.md R125), from the control word, the value read for `B` and the word. -/
def rightOperand (cw : CtlWord) (b ins : Word) : Word :=
  match cw.selRightOp.toNat with
  | 0 => b
  | 1 => sext5 (fieldImm5 ins)
  | 2 => sext5 (fieldSimm5 ins)
  | _ => sext11 (fieldImm11 ins)

/-- The store operand (40_pipeline.md R126); code 1 is the link value, one past the instruction's own address. -/
def storeOperand (cw : CtlWord) (b ins pc : Word) : Word :=
  match cw.selStoreOp.toNat with
  | 0 => b
  | 1 => pc + 1
  | 2 => sext8 (fieldImm8 ins)
  | _ => imm8High (fieldImm8 ins)

/-- The ALU's left input `L` (40_pipeline.md R127). -/
def leftInput (cw : CtlWord) (a : Word) : Word := if cw.rs0 then a else 0x0000

/-- The ALU's right input `Rt` (40_pipeline.md R127). -/
def rightInput (cw : CtlWord) (rop : Word) : Word := if cw.rs1 then rop else 0x0000

/-- The ALU as a control word drives it on the operand values (40_pipeline.md R127 to R129). -/
def aluStage (cw : CtlWord) (a rop : Word) : AluOut :=
  alu cw.aluOp cw.c0 (leftInput cw a) (rightInput cw rop)

/-- Write the byte lanes that are enabled, keep the others (40_pipeline.md R122). -/
def mergeLanes (lo hi : Bool) (new old : Word) : Word :=
  (if hi then hiByte new else hiByte old) ++ (if lo then loByte new else loByte old)

/-- The effective address of LOAD and STORE (43_load_store.md R219): base plus signed displacement, wrapping. -/
def effectiveAddress (base : Word) (imm : BitVec 5) : Word := base + sext5 imm

/-- The target of a relative jump at `pc` (45_control_transfer.md R240): own address plus 2 plus displacement, wrapping. -/
def relativeTarget (pc : Word) (imm : BitVec 11) : Word := pc + 2 + sext11 imm

/-- The target of a register-indirect jump (45_control_transfer.md R240). -/
def indirectTarget (base : Word) (imm : BitVec 5) : Word := base + sext5 imm

end Sys2Proof.Machine
end

