-- ==== Sys2Proof/Machine/DecodeTable.lean ====
section
/-!
DEFINITION. The decode table's address (spec 30_encoding.md R88) and the reference table `REFDT` (R91 to R93). The whole table
is the spec's own (D12; log entry 9); the pipeline layer takes any table.
-/

namespace Sys2Proof.Machine

/-- R88: `(N << 8) | (V << 7) | (Z << 6) | (C << 5) | opcode`. -/
def tableAddress (fl : Flags) (op : BitVec 5) : BitVec 9 :=
  BitVec.ofBool fl.n ++ BitVec.ofBool fl.v ++ BitVec.ofBool fl.z ++ BitVec.ofBool fl.c ++ op

/-- The flags an address of the table stands for (R88). -/
def addressFlags (k : BitVec 9) : Flags :=
  { n := k.getLsbD 8, c := k.getLsbD 5, z := k.getLsbD 6, v := k.getLsbD 7 }

/-- The control word of JMP and of every taken conditional branch (R91). -/
def jumpcw : CtlWord := 0x6019B8

/-- A conditional branch's entry (R91, R92): JMP's control word when the condition holds, `NOPCW` when it does not. -/
def branchcw (taken : Bool) : CtlWord := if taken then jumpcw else nopcw

/-- `REFDT` (R91): one control word for each address, the row of the opcode `k[4:0]` at the flags `k[8:5]`. -/
def refdt (k : BitVec 9) : CtlWord :=
  let fl := addressFlags k
  match (k.extractLsb' 0 5).toNat with
  | 0 => nopcw
  | 1 => 0x600021
  | 2 => 0x504DA8
  | 3 => 0x018DB0
  | 4 => 0x720024
  | 5 => 0x6A0026
  | 6 => 0x000D40
  | 7 => 0x100D80
  | 8 => 0x100D40
  | 9 => 0x100F00
  | 10 => 0x100E80
  | 11 => 0x100E00
  | 12 => 0x500480
  | 13 => 0x400D48
  | 14 => 0x500D88
  | 15 => 0x500D48
  | 16 => 0x500F08
  | 17 => 0x500E88
  | 18 => 0x500E08
  | 19 => nopcw
  | 20 => jumpcw
  | 21 => 0x403DA8
  | 22 => 0x523DAA
  | 23 => nopcw
  | 24 => branchcw (condBeq fl)
  | 25 => branchcw (condBne fl)
  | 26 => branchcw (condBlt fl)
  | 27 => branchcw (condBgt fl)
  | 28 => branchcw (condBltu fl)
  | 29 => branchcw (condBgtu fl)
  | 30 => if fl.c then 0x100DC0 else 0x100D80
  | _ => if fl.c then 0x100D40 else 0x100D00

end Sys2Proof.Machine
end

