-- ==== Sys2Proof/Machine/Memory.lean ====
section
/-!
DEFINITION. A space of 65536 words: reading, writing and the canonical form (spec 20_memory.md R51, R55; 92_eei_decisions.md
D27, D40). Log entries 2 and 3.
-/

namespace Sys2Proof.Machine

/-- The word listed at `k`, or what an unlisted address reads as. -/
def Memory.lookup (k : Nat) : Memory → Word
  | [] => Config.unlistedWord
  | c :: m => if c.1 = k then c.2 else Memory.lookup k m

/-- The word at an address: one access moves one whole word (R53). -/
def Memory.read (m : Memory) (a : Word) : Word := Memory.lookup a.toNat m

/-- No cell at `k`. -/
def Memory.erase (k : Nat) (m : Memory) : Memory := m.filter fun c => c.1 != k

/-- A cell put before the first cell of a higher address. -/
def Memory.insertCell (k : Nat) (v : Word) : Memory → Memory
  | [] => [(k, v)]
  | c :: m => if k < c.1 then (k, v) :: c :: m else c :: Memory.insertCell k v m

/-- The memory after a word is written: writing what an unlisted address reads as leaves no cell there, so that equal memories
are equal lists. -/
def Memory.write (m : Memory) (a v : Word) : Memory :=
  if v = Config.unlistedWord then Memory.erase a.toNat m
  else Memory.insertCell a.toNat v (Memory.erase a.toNat m)

/-- The canonical form: every address in the space, no cell that reads as an unlisted address does, addresses strictly rising. -/
abbrev Memory.wf (m : Memory) : Prop :=
  m.Pairwise (fun c d => c.1 < d.1) ∧ ∀ c ∈ m, c.1 < Config.addressCount ∧ c.2 ≠ Config.unlistedWord

end Sys2Proof.Machine
end

