-- ==== Sys2Proof/Machine/Params.lean ====
section
/-!
DEFINITION. The parameters of the model (spec 00_scope.md R8): the decode table, the data environment, the number of reset cycles; and
which of them are admitted (30_encoding.md R90). `IMEM` is the field `State.imem`; `READY` is constant 1 and appears nowhere (D30; log entry 22).
-/

namespace Sys2Proof.Machine

/-- The parameters of R8 as a caller hands them in, before any check. The data environment answers a load from the data-port calls
made before (youngest first), the words stored so far and the address, which covers plain memory, banked memory and devices with read
side effects (R55; log entry 20). `instrAlias calls b a` says
that a store to data address `b`, made after those data-port calls (youngest first), lands in the storage that the instruction port
reads at `a` in this run, where the environment aliases the two ports (20_memory.md R52, R62; D26, log entry 5); sharing may be
one to one, mirrored on either side, partial, or switched by the data port (R55; log entry 31). -/
structure Setup where
  dt : DecodeTable
  dload : List PortCall → Memory → Word → Word
  dstore : Memory → Word → Word → Memory
  instrAlias : List PortCall → Word → Word → Bool
  resetCycles : Nat

/-- The parameters the machine is defined for: the table is well-formed. An ill-formed table has no machine and no theorem covers it
(30_encoding.md R90, 60_exceptions.md R272; 93_implementation_defined.md U18; D32, log entry 9). -/
structure Params extends Setup where
  wellFormed : tableWellFormed dt = true

/-- The parameters are admitted, or refused before any cycle runs (60_exceptions.md R272). -/
def Setup.check (c : Setup) : Except Refusal Params :=
  if h : tableWellFormed c.dt = true then .ok { c with wellFormed := h } else .error .illFormedTable

/-- The defaults: `REFDT`, plain memory (92_eei_decisions.md D27), two separate spaces (D26), 4 reset cycles (D21). -/
def Params.ref : Params where
  dt := refdt
  dload := fun _ m a => m.read a
  dstore := fun m a v => m.write a v
  instrAlias := fun _ _ _ => false
  resetCycles := Config.resetCycles
  wellFormed := by decide +kernel

end Sys2Proof.Machine
end

