-- ==== Sys2Proof/Machine/Ops.lean ====
section
/-!
DEFINITION. The named operations over registers, flags, memory, `PC` and the outputs. Every meaning and every stage is written
over these. There is no exception to take and none to return from (spec 60_exceptions.md R275, R276): what on another machine would
stand here as the shared entry operation does not exist (log entry 21).
-/

namespace Sys2Proof.Machine

/-- Read a general register (10_state.md R20, R22): no register is special. -/
def readReg (regs : Vector Word 8) (r : RegIdx) : Word := regs[r.toNat]'r.isLt

/-- Write a whole general register. -/
def writeReg (regs : Vector Word 8) (r : RegIdx) (v : Word) : Vector Word 8 := regs.set r.toNat v r.isLt

/-- The write-back commit (40_pipeline.md R122): the enabled byte lanes of register `r`, nothing else. -/
def commitReg (cw : CtlWord) (r : RegIdx) (c : Word) (regs : Vector Word 8) : Vector Word 8 :=
  writeReg regs r (mergeLanes cw.writesLo cw.writesHi c (readReg regs r))

/-- `R[r]`. -/
def State.reg (s : State) (r : RegIdx) : Word := readReg s.regs r

/-- `R[r] <- v`. -/
def State.setReg (r : RegIdx) (v : Word) (s : State) : State := { s with regs := writeReg s.regs r v }

/-- `FL <- fl`: all four bits together (R26). -/
def State.setFlags (fl : Flags) (s : State) : State := { s with flags := fl }

/-- A call of a port is made (20_memory.md R59, R63). -/
def State.logCall (c : PortCall) (s : State) : State := { s with calls := c :: s.calls }

/-- A data-port call, as against an instruction fetch. -/
def PortCall.isData : PortCall → Bool
  | .fetch _ => false
  | .load _ _ => true
  | .store _ _ => true

/-- The data-port calls of a call record, youngest first (R59). -/
def dataCalls (calls : List PortCall) : List PortCall := calls.filter PortCall.isData

/-- `IFetch(PC)` (00_scope.md R13, R64): the word at `PC` and the state with the call made. -/
def State.fetch (s : State) : Word × State := (s.imem.read s.pc, s.logCall (.fetch s.pc))

/-- `MemRead(a, 1)` (R13, R55): the environment's answer, and the state with the call made. -/
def State.dataLoad (p : Params) (a : Word) (s : State) : Word × State :=
  let v := p.dload (dataCalls s.calls) s.dmem a
  (v, s.logCall (.load a v))

/-- `MemWrite(a, 1, v)` (R13, R55). -/
def State.dataStore (p : Params) (a v : Word) (s : State) : State :=
  { s.logCall (.store a v) with dmem := p.dstore s.dmem a v }

/-- The MEM stage's work for a control word (40_pipeline.md R124): `yM` and the state after the access, if there is one. -/
def memAccess (p : Params) (cw : CtlWord) (y sop : Word) (s : State) : Word × State :=
  let r := if cw.memLoad then s.dataLoad p y else (y, s)
  (r.1, if cw.memStore then r.2.dataStore p y sop else r.2)

/-- The instruction ends and the next one is at `target`; the run goes on. -/
def State.continueAt (target : Word) (s : State) : State := { s with pc := target, haltedOut := false }

/-- `pc <- pc + 1`, the end of every instruction that is no taken jump (R146). -/
def State.advance (s : State) : State := s.continueAt (s.pc + 1)

/-- An ALU instruction that writes its destination (41_alu_register.md R180): `R[C] <- F`, all four flags, `pc + 1`. -/
def State.aluWrite (c : RegIdx) (r : AluOut) (s : State) : State := ((s.setReg c r.f).setFlags r.flags).advance

/-- A compare: all four flags, no register (41_alu_register.md R181). -/
def State.aluCompare (r : AluOut) (s : State) : State := (s.setFlags r.flags).advance

/-- A conditional branch (45_control_transfer.md section 3): the relative target when the condition holds, else `pc + 1`. -/
def State.branch (taken : Bool) (imm : BitVec 11) (s : State) : State :=
  if taken then s.continueAt (relativeTarget s.pc imm) else s.advance

end Sys2Proof.Machine
end

