-- ==== Sys2Proof/Machine/AluImmediate.lean ====
section
/-!
DEFINITION. Register-immediate ALU instructions (spec 42_alu_immediate.md). The right operand is the sign-extended 5-bit
immediate, for the logical instructions too (R200; D37, log entry 12).
-/

namespace Sys2Proof.Machine

/-- CMPI (R201). -/
def execCmpi (a : RegIdx) (imm : BitVec 5) (s : State) :
    Host.Outcome State Fault Refusal :=
  .next (s.aluCompare (add3 (s.reg a) (~~~(sext5 imm)) true))

/-- ADDI (R202). -/
def execAddi (c a : RegIdx) (imm : BitVec 5) (s : State) :
    Host.Outcome State Fault Refusal :=
  .next (s.aluWrite c (add3 (s.reg a) (sext5 imm) false))

/-- SUBI (R203). -/
def execSubi (c a : RegIdx) (imm : BitVec 5) (s : State) :
    Host.Outcome State Fault Refusal :=
  .next (s.aluWrite c (add3 (s.reg a) (~~~(sext5 imm)) true))

/-- ANDI (R204). -/
def execAndi (c a : RegIdx) (imm : BitVec 5) (s : State) :
    Host.Outcome State Fault Refusal :=
  .next (s.aluWrite c (logical (s.reg a &&& sext5 imm)))

/-- ORI (R205). -/
def execOri (c a : RegIdx) (imm : BitVec 5) (s : State) :
    Host.Outcome State Fault Refusal :=
  .next (s.aluWrite c (logical (s.reg a ||| sext5 imm)))

/-- XORI (R206). -/
def execXori (c a : RegIdx) (imm : BitVec 5) (s : State) :
    Host.Outcome State Fault Refusal :=
  .next (s.aluWrite c (logical (s.reg a ^^^ sext5 imm)))

end Sys2Proof.Machine
end

