-- ==== Sys2Proof/Machine/AluRegister.lean ====
section
/-!
DEFINITION. Register-register ALU instructions (spec 41_alu_register.md). Each reads its sources before it writes (40_pipeline.md
R146), so the destination may equal a source, writes all four flags and ends with `pc + 1` (R180).
-/

namespace Sys2Proof.Machine

/-- CMP (R181): `a - b` for the flags only. -/
def execCmp (a b : RegIdx) (s : State) :
    Host.Outcome State Fault Refusal :=
  .next (s.aluCompare (add3 (s.reg a) (~~~(s.reg b)) true))

/-- ADD (R182). -/
def execAdd (c a b : RegIdx) (s : State) :
    Host.Outcome State Fault Refusal :=
  .next (s.aluWrite c (add3 (s.reg a) (s.reg b) false))

/-- SUB (R183): `C = 1` means no borrow. -/
def execSub (c a b : RegIdx) (s : State) :
    Host.Outcome State Fault Refusal :=
  .next (s.aluWrite c (add3 (s.reg a) (~~~(s.reg b)) true))

/-- AND (R184). -/
def execAnd (c a b : RegIdx) (s : State) :
    Host.Outcome State Fault Refusal :=
  .next (s.aluWrite c (logical (s.reg a &&& s.reg b)))

/-- OR (R185). -/
def execOr (c a b : RegIdx) (s : State) :
    Host.Outcome State Fault Refusal :=
  .next (s.aluWrite c (logical (s.reg a ||| s.reg b)))

/-- XOR (R186). -/
def execXor (c a b : RegIdx) (s : State) :
    Host.Outcome State Fault Refusal :=
  .next (s.aluWrite c (logical (s.reg a ^^^ s.reg b)))

/-- NOT (R187): `0 + ~a + 0`, so `C = 0` and `V = 0`. -/
def execNot (c a : RegIdx) (s : State) :
    Host.Outcome State Fault Refusal :=
  .next (s.aluWrite c (add3 0x0000 (~~~(s.reg a)) false))

/-- ADC (R188): the Carry flag before this instruction is the carry-in. -/
def execAdc (c a b : RegIdx) (s : State) :
    Host.Outcome State Fault Refusal :=
  .next (s.aluWrite c (add3 (s.reg a) (s.reg b) s.flags.c))

/-- SBC (R189): the Carry flag before this instruction says no borrow is pending. -/
def execSbc (c a b : RegIdx) (s : State) :
    Host.Outcome State Fault Refusal :=
  .next (s.aluWrite c (add3 (s.reg a) (~~~(s.reg b)) s.flags.c))

end Sys2Proof.Machine
end

