-- ==== Sys2Proof/Machine/ControlTransfer.lean ====
section
/-!
DEFINITION. Control transfer (spec 45_control_transfer.md). No flag changes; only JALR writes a register (R250). There is no delay slot: a
jump is `pc <- target` (R250, 70_reset_and_hazards.md R313).
-/

namespace Sys2Proof.Machine

/-- JMP (R241). -/
def execJmp (imm : BitVec 11) (s : State) :
    Host.Outcome State Fault Refusal :=
  .next (s.continueAt (relativeTarget s.pc imm))

/-- JR (R242). -/
def execJr (a : RegIdx) (imm : BitVec 5) (s : State) :
    Host.Outcome State Fault Refusal :=
  .next (s.continueAt (indirectTarget (s.reg a) imm))

/-- JALR (R243): the target uses `R[A]` as it was before the link `pc + 1` is written (D24, log entry 12). -/
def execJalr (c a : RegIdx) (imm : BitVec 5) (s : State) :
    Host.Outcome State Fault Refusal :=
  let target := indirectTarget (s.reg a) imm
  .next ((s.setReg c (s.pc + 1)).continueAt target)

/-- BEQ (R244), with the condition of R92. -/
def execBeq (imm : BitVec 11) (s : State) :
    Host.Outcome State Fault Refusal :=
  .next (s.branch (condBeq s.flags) imm)

/-- BNE (R245), with the condition of R92. -/
def execBne (imm : BitVec 11) (s : State) :
    Host.Outcome State Fault Refusal :=
  .next (s.branch (condBne s.flags) imm)

/-- BLT (R246), with the condition of R92. -/
def execBlt (imm : BitVec 11) (s : State) :
    Host.Outcome State Fault Refusal :=
  .next (s.branch (condBlt s.flags) imm)

/-- BGT (R247), with the condition of R92. -/
def execBgt (imm : BitVec 11) (s : State) :
    Host.Outcome State Fault Refusal :=
  .next (s.branch (condBgt s.flags) imm)

/-- BLTU (R248), with the condition of R92. -/
def execBltu (imm : BitVec 11) (s : State) :
    Host.Outcome State Fault Refusal :=
  .next (s.branch (condBltu s.flags) imm)

/-- BGTU (R249), with the condition of R92. -/
def execBgtu (imm : BitVec 11) (s : State) :
    Host.Outcome State Fault Refusal :=
  .next (s.branch (condBgtu s.flags) imm)

end Sys2Proof.Machine
end

