-- ==== Sys2Proof/Machine/ImmediateMoves.lean ====
section
/-!
DEFINITION. Immediate moves (spec 44_immediate_moves.md). Flags unchanged. The extension of LI and the byte LUI writes are D23 (log
entry 12).
-/

namespace Sys2Proof.Machine

/-- LI (R230): the sign-extended immediate in the whole register. -/
def execLi (c : RegIdx) (imm : BitVec 8) (s : State) :
    Host.Outcome State Fault Refusal :=
  .next ((s.setReg c (sext8 imm)).advance)

/-- LUI (R231): the high byte written, the low byte kept. -/
def execLui (c : RegIdx) (imm : BitVec 8) (s : State) :
    Host.Outcome State Fault Refusal :=
  .next ((s.setReg c (mergeLanes false true (imm8High imm) (s.reg c))).advance)

end Sys2Proof.Machine
end

