-- ==== Sys2Proof/Machine/LoadStore.lean ====
section
/-!
DEFINITION. LOAD and STORE (spec 43_load_store.md): one addressing mode, one data-port call each, flags unchanged (R219). They use the
default data environment, plain memory (20_memory.md R55; D27, log entries 3 and 20).
-/

namespace Sys2Proof.Machine

/-- LOAD (R220): the base is read before the destination is written. -/
def execLoad (c a : RegIdx) (imm : BitVec 5) (s : State) :
    Host.Outcome State Fault Refusal :=
  let r := s.dataLoad Params.ref (effectiveAddress (s.reg a) imm)
  .next ((r.2.setReg c r.1).advance)

/-- STORE (R221): `B` is the data register, `A` the base; no register is written. -/
def execStore (b a : RegIdx) (imm : BitVec 5) (s : State) :
    Host.Outcome State Fault Refusal :=
  .next ((s.dataStore Params.ref (effectiveAddress (s.reg a) imm) (s.reg b)).advance)

end Sys2Proof.Machine
end

