-- ==== Sys2Proof/Machine/System.lean ====
section
/-!
DEFINITION. NOP, HLT and the unused opcodes (spec 46_system.md).
-/

namespace Sys2Proof.Machine

/-- NOP (R260): `pc + 1`, nothing else. -/
def execNop (s : State) :
    Host.Outcome State Fault Refusal :=
  .next (s.advance)

/-- HLT (R261): the run ends, `pc + 1`, nothing else. The end is the output the driver sees; a further step is an ordinary one
(60_exceptions.md R285; D39, log entry 16). -/
def execHlt (s : State) :
    Host.Outcome State Fault Refusal :=
  .next { s.advance with haltedOut := true }

/-- Opcode 19 (R262): exactly as NOP (D36, log entry 26). -/
def execUnused19 (s : State) :
    Host.Outcome State Fault Refusal :=
  .next (s.advance)

/-- Opcode 23 (R262): exactly as NOP (D36, log entry 26). -/
def execUnused23 (s : State) :
    Host.Outcome State Fault Refusal :=
  .next (s.advance)

end Sys2Proof.Machine
end

