-- ==== Sys2Proof/Machine/Dispatch.lean ====
section
/-!
DEFINITION. Which meaning each instruction has: one arm for each row of spec/opcode_table.json.
-/

namespace Sys2Proof.Machine

def exec (i : Instr) (s : State) : Host.Outcome State Fault Refusal :=
  match i with
  | .nop => Sys2Proof.Machine.execNop s
  | .hlt => Sys2Proof.Machine.execHlt s
  | .load c a imm => Sys2Proof.Machine.execLoad c a imm s
  | .store b a imm => Sys2Proof.Machine.execStore b a imm s
  | .li c imm => Sys2Proof.Machine.execLi c imm s
  | .lui c imm => Sys2Proof.Machine.execLui c imm s
  | .cmp a b => Sys2Proof.Machine.execCmp a b s
  | .add c a b => Sys2Proof.Machine.execAdd c a b s
  | .sub c a b => Sys2Proof.Machine.execSub c a b s
  | .and c a b => Sys2Proof.Machine.execAnd c a b s
  | .or c a b => Sys2Proof.Machine.execOr c a b s
  | .xor c a b => Sys2Proof.Machine.execXor c a b s
  | .not c a => Sys2Proof.Machine.execNot c a s
  | .cmpi a imm => Sys2Proof.Machine.execCmpi a imm s
  | .addi c a imm => Sys2Proof.Machine.execAddi c a imm s
  | .subi c a imm => Sys2Proof.Machine.execSubi c a imm s
  | .andi c a imm => Sys2Proof.Machine.execAndi c a imm s
  | .ori c a imm => Sys2Proof.Machine.execOri c a imm s
  | .xori c a imm => Sys2Proof.Machine.execXori c a imm s
  | .unused19 => Sys2Proof.Machine.execUnused19 s
  | .jmp imm => Sys2Proof.Machine.execJmp imm s
  | .jr a imm => Sys2Proof.Machine.execJr a imm s
  | .jalr c a imm => Sys2Proof.Machine.execJalr c a imm s
  | .unused23 => Sys2Proof.Machine.execUnused23 s
  | .beq imm => Sys2Proof.Machine.execBeq imm s
  | .bne imm => Sys2Proof.Machine.execBne imm s
  | .blt imm => Sys2Proof.Machine.execBlt imm s
  | .bgt imm => Sys2Proof.Machine.execBgt imm s
  | .bltu imm => Sys2Proof.Machine.execBltu imm s
  | .bgtu imm => Sys2Proof.Machine.execBgtu imm s
  | .adc c a b => Sys2Proof.Machine.execAdc c a b s
  | .sbc c a b => Sys2Proof.Machine.execSbc c a b s

end Sys2Proof.Machine
end

