-- ==== Sys2Proof/Machine/Step.lean ====
section
/-!
DEFINITION. One step of the machine: one instruction of the instruction layer (spec 40_pipeline.md R146). The clock cycle of the
pipeline layer is `cycle` in Machine/Pipeline.lean (log entry 1).
-/

namespace Sys2Proof.Machine

/-- R146: fetch the word at `pc`, decode it, give it its effect. -/
def step (s : State) : Host.Outcome State Fault Refusal :=
  exec (decode s.fetch.1) s.fetch.2

/-- The state with an instruction word placed in the instruction memory at the address the next step fetches from (log
entries 4 and 29). One instruction is one word (30_encoding.md R70), so nothing stands above it. -/
def State.withFetchWord (s : State) (nbits w : Nat) : State :=
  { s with imem := s.imem.write s.pc (BitVec.ofNat 16 (w % 2 ^ nbits)) }

end Sys2Proof.Machine
end

