-- ==== Sys2Proof/Machine/Sequential.lean ====
section
/-!
DEFINITION. The instruction-layer step for any well-formed decode table and data environment (spec 40_pipeline.md R146), and the run of the
instruction-layer machine to its end (R144). The meanings of files 41 to 46 are this step under `REFDT`.
-/

namespace Sys2Proof.Machine

/-- The control word of a word at given flags: the table lookup of R134 and R146. -/
def lookupCtl (p : Params) (fl : Flags) (w : Word) : CtlWord := p.dt (tableAddress fl (opcode w))

/-- R146: the effect of the word `w` on the state whose `pc` is the word's own address. The flags of the lookup and the register
values are those before the instruction. -/
def insnEffect (p : Params) (w : Word) (s : State) : State :=
  let cw := lookupCtl p s.flags w
  let a := s.reg (fieldA w)
  let b := s.reg (fieldB w)
  let sop := storeOperand cw b w s.pc
  let r := aluStage cw a (rightOperand cw b w)
  let m := memAccess p cw r.f sop s
  let c := if cw.writeBackSrcFlag then sop else m.1
  { m.2 with
    flags := if cw.fi then s.flags else r.flags
    regs := commitReg cw (fieldC w) c s.regs
    pc := if cw.j then (if cw.jabs then r.f else s.pc + 2 + r.f) else s.pc + 1
    haltedOut := cw.hlt }

/-- One step of the instruction-layer machine: fetch `IMEM(pc)` and give it its effect (R146). -/
def insnStep (p : Params) (s : State) : State := insnEffect p s.fetch.1 s.fetch.2

/-- `n` steps of the instruction-layer machine, whatever they do. -/
def insnSteps (p : Params) : Nat → State → State
  | 0, s => s
  | n + 1, s => insnSteps p n (insnStep p s)

/-- The run of the instruction-layer machine (R144): it stops after the instruction whose control word asserts `HLT`, or
when `n` instructions have run. -/
def runInsns (p : Params) : Nat → State → State
  | 0, s => s
  | n + 1, s => if (insnStep p s).haltedOut then insnStep p s else runInsns p n (insnStep p s)

end Sys2Proof.Machine
end

