-- ==== Sys2Proof/Machine/Pipeline.lean ====
section
/-!
DEFINITION. The pipeline layer: one clock cycle, stage by stage, for any well-formed decode table (spec 40_pipeline.md R120 to R142),
and the core's external signals (60_exceptions.md R286). What a caller runs, with its refusals, is in Machine/Driver.lean. Every
function reads the latches as they stood at the start of the cycle (R120); `cycle` replaces the whole state at once (R140). Forwarding, stalls, squash
and the effect of `rst` are the spec's decisions D14 to D19, D22, D33, D34 (log entries 13, 14, 15, 18, 24).
-/

namespace Sys2Proof.Machine

/-! ### WB -/

/-- `c_WB`, the value to commit (R121). -/
def wbValue (s : State) : Word := if s.memwb.ctl.writeBackSrcFlag then s.memwb.sop else s.memwb.y

/-- `R'`, the register file after this cycle's commit (R122): what ID reads and what the state holds at the end. -/
def committedRegs (s : State) : Vector Word 8 := commitReg s.memwb.ctl s.memwb.selC (wbValue s) s.regs

/-- `halted_out` (R123). -/
def haltSignal (s : State) : Bool := s.memwb.ctl.hlt

/-! ### MEM -/

/-- `yM` and the state after this cycle's data access (R124). -/
def memStage (p : Params) (s : State) : Word × State := memAccess p s.exmem.ctl s.exmem.y s.exmem.sop s

/-- `MEMWB'` (R124). -/
def nextMEMWB (p : Params) (s : State) : MEMWB :=
  { ctl := s.exmem.ctl, y := (memStage p s).1, sop := s.exmem.sop, selC := s.exmem.selC, pc := s.exmem.pc }

/-! ### EX -/

/-- The store operand selected in EX (R126). -/
def exStoreOp (s : State) : Word := storeOperand s.idex.ctl s.idex.b s.idex.ins s.idex.pc

/-- The ALU in EX (R125, R127 to R129). -/
def exAlu (s : State) : AluOut := aluStage s.idex.ctl s.idex.a (rightOperand s.idex.ctl s.idex.b s.idex.ins)

/-- `FL'`, EX's flag output and the flags at the end of the cycle (R130). -/
def exFlags (s : State) : Flags := if s.idex.ctl.fi then s.flags else (exAlu s).flags

/-- `EXMEM'` (R131). -/
def nextEXMEM (s : State) : EXMEM :=
  { ctl := s.idex.ctl, y := (exAlu s).f, sop := exStoreOp s, selC := fieldC s.idex.ins, pc := s.idex.pc }

/-! ### ID -/

/-- `cw_ID`, the table lookup with EX's flag output of this cycle (R133, R134). -/
def idCtl (p : Params) (s : State) : CtlWord := lookupCtl p (exFlags s) s.ifid.ins

/-- A register write an instruction in EX or MEM will make when it reaches WB (R135). -/
structure PendingWrite where
  lo : Bool
  hi : Bool
  sel : RegIdx
  val : Word
  deriving DecidableEq, Repr

/-- `pEX` (R135). -/
def pendingEX (s : State) : PendingWrite :=
  { lo := s.idex.ctl.writesLo, hi := s.idex.ctl.writesHi, sel := fieldC s.idex.ins
    val := if s.idex.ctl.writeBackSrcFlag then exStoreOp s else (exAlu s).f }

/-- `pEX.avail` (R135): the value exists in EX unless it is the word of a load. -/
def pendingEXAvailable (s : State) : Bool := s.idex.ctl.writeBackSrcFlag || !s.idex.ctl.memLoad

/-- `pMEM` (R135). -/
def pendingMEM (p : Params) (s : State) : PendingWrite :=
  { lo := s.exmem.ctl.writesLo, hi := s.exmem.ctl.writesHi, sel := s.exmem.selC
    val := if s.exmem.ctl.writeBackSrcFlag then s.exmem.sop else (memStage p s).1 }

/-- A pending write laid over an older value of register `r`, byte lane by byte lane (R135). -/
def PendingWrite.over (w : PendingWrite) (r : RegIdx) (old : Word) : Word :=
  mergeLanes (w.lo && w.sel == r) (w.hi && w.sel == r) w.val old

/-- `read(r)` (R135): the youngest pending write wins, then the older one, then the register file after the commit. -/
def idRead (p : Params) (s : State) (r : RegIdx) : Word :=
  (pendingEX s).over r ((pendingMEM p s).over r (readReg (committedRegs s) r))

/-- `hz(r)` (R136): the instruction in EX will write `r` and its value is not there yet. -/
def regHazard (s : State) (r : RegIdx) : Bool :=
  ((pendingEX s).lo || (pendingEX s).hi) && (pendingEX s).sel == r && !pendingEXAvailable s

/-- The instruction in ID needs a register whose value is not there yet (R136); the hints only suppress this. -/
def hazard (p : Params) (s : State) : Bool :=
  (!(idCtl p s).leftUnused && regHazard s (fieldA s.ifid.ins)) ||
  (!(idCtl p s).rightUnused && regHazard s (fieldB s.ifid.ins))

/-- R137: never in a cycle with a taken jump or with reset. -/
def stall (p : Params) (rst : Bool) (s : State) : Bool := hazard p s && !s.idex.ctl.j && !rst

/-- `IDEX'` (R138): a bubble for a reset, squashed or stalled slot. -/
def nextIDEX (p : Params) (rst : Bool) (s : State) : IDEX :=
  { ctl := if rst || s.idex.ctl.j || stall p rst s then nopcw else idCtl p s
    a := idRead p s (fieldA s.ifid.ins)
    b := idRead p s (fieldB s.ifid.ins)
    ins := s.ifid.ins
    pc := s.ifid.pc }

/-! ### IF -/

/-- A fetch is made in this cycle: neither reset nor stall (R139, 20_memory.md R64). -/
def fetches (p : Params) (rst : Bool) (s : State) : Bool := !rst && !stall p rst s

/-- `PC'` (R139): reset over stall over jump. -/
def nextPC (p : Params) (rst : Bool) (s : State) : Word :=
  if rst then 0x0000
  else if stall p rst s then s.pc
  else if s.idex.ctl.j then (if s.idex.ctl.jabs then (exAlu s).f else s.pc + (exAlu s).f)
  else s.pc + 1

/-- `IFID'` (R139): the word fetched in a taken-jump cycle is replaced by the NOP word. -/
def nextIFID (p : Params) (rst : Bool) (s : State) : IFID :=
  if rst then { ins := 0x0000, pc := 0x0000 }
  else if stall p rst s then s.ifid
  else if s.idex.ctl.j then { ins := 0x0000, pc := s.pc }
  else { ins := s.imem.read s.pc, pc := s.pc }

/-! ### The driver -/

/-- The port calls of a cycle are made: the data access of MEM, then the fetch of IF (20_memory.md R60). -/
def portsAfter (p : Params) (rst : Bool) (s : State) : State :=
  if fetches p rst s then (memStage p s).2.logCall (.fetch s.pc) else (memStage p s).2

/-- One clock cycle with the input `rst` (R120, R140, R142), for the admitted parameters only. -/
def cycle (p : Params) (rst : Bool) (s : State) : State :=
  { portsAfter p rst s with
    regs := committedRegs s
    flags := exFlags s
    pc := nextPC p rst s
    ifid := nextIFID p rst s
    idex := nextIDEX p rst s
    exmem := nextEXMEM s
    memwb := nextMEMWB p s
    cyc := s.cyc + 1
    haltedOut := haltSignal s }

/-- `n` cycles with the same `rst`. -/
def cycles (p : Params) (rst : Bool) : Nat → State → State
  | 0, s => s
  | n + 1, s => cycles p rst n (cycle p rst s)

/-- `run()` (R141): cycles until the end of the first one during which `halted_out` was asserted, or until `n` have run. The
source's wall-clock deadline is outside the hardware (00_scope.md R5). -/
def runCycles (p : Params) : Nat → State → State
  | 0, s => s
  | n + 1, s => if haltSignal s then cycle p false s else runCycles p n (cycle p false s)

/-! ### External signals -/

/-- The core's outputs in a cycle (60_exceptions.md R286). -/
structure OutputSignals where
  fetchAddress : Word
  fetchStrobe : Bool
  dataAddress : Word
  storeData : Word
  loadStrobe : Bool
  storeStrobe : Bool
  assertStoreOp : Bool
  haltedOut : Bool
  deriving DecidableEq, Repr

/-- The outputs as functions of the state at the start of the cycle and `rst` (R286). -/
def outputSignals (p : Params) (rst : Bool) (s : State) : OutputSignals :=
  { fetchAddress := s.pc, fetchStrobe := fetches p rst s
    dataAddress := s.exmem.y, storeData := s.exmem.sop
    loadStrobe := s.exmem.ctl.memLoad, storeStrobe := s.exmem.ctl.memStore
    assertStoreOp := s.exmem.ctl.assertStoreOp, haltedOut := haltSignal s }

end Sys2Proof.Machine
end

