-- ==== Sys2Proof/Machine/Driver.lean ====
section
/-!
DEFINITION. What a caller can do with the machine: one cycle, a run, `reset()` and the hard reset of the pipeline layer, one instruction
and a run of the instruction layer (spec 40_pipeline.md R141, R142, R144, R146; 70_reset_and_hazards.md R300 to R304). Each refuses an
ill-formed table before anything runs (30_encoding.md R90, 60_exceptions.md R272; log entry 9), and a fetch of a word that the run has
stored to through an aliased environment (20_memory.md R62, 70_reset_and_hazards.md R315; D26, log entry 5).
-/

namespace Sys2Proof.Machine

/-- Go on from a next state. -/
def andThen (o : Host.Outcome State Fault Refusal) (f : State → Host.Outcome State Fault Refusal) :
    Host.Outcome State Fault Refusal :=
  match o with
  | .next t => f t
  | .fault e => .fault e
  | .refused r => .refused r

/-- Go on with the parameters if they are admitted (R90, R272). -/
def Setup.admitted (c : Setup) (f : Params → Host.Outcome State Fault Refusal) : Host.Outcome State Fault Refusal :=
  match c.check with
  | .ok p => f p
  | .error r => .refused r

/-! ### Self-modifying programs -/

/-- One of the calls, youngest first, is a store to the storage of the instruction word at `a` (R62). -/
def storedTo (p : Params) (a : Word) : List PortCall → Bool
  | [] => false
  | .store b _ :: older => p.instrAlias (dataCalls older) b a || storedTo p a older
  | .load _ _ :: older => storedTo p a older
  | .fetch _ :: older => storedTo p a older

/-- The instruction step fetches a word stored to before (R62). -/
def insnFetchesStored (p : Params) (s : State) : Bool := storedTo p s.pc s.calls

/-- The instruction in MEM stores to the storage of the instruction word at `a` in this cycle. -/
def memStoresTo (p : Params) (s : State) (a : Word) : Bool :=
  s.exmem.ctl.memStore && p.instrAlias (dataCalls s.calls) s.exmem.y a

/-- IFID holds a word that was fetched and not replaced: `PC` is one past it (40_pipeline.md R143), and the instruction in MEM is no
jump that squashed it. False in the IFID a reset cycle has cleared (R142). Log entry 32. -/
def fetchedInID (s : State) : Bool := !s.exmem.ctl.j && s.pc == s.ifid.pc + 1

/-- The same of the word in EX, one before the word in ID. A bubble between a storing MEM and a fetched ID does not occur: a stall puts
one behind a load only (R136). Log entry 32. -/
def fetchedInEX (s : State) : Bool := fetchedInID s && s.ifid.pc == s.idex.pc + 1

/-- MEM stores to the word of a younger instruction that has been fetched already: the one in EX, or the one in ID if neither a taken
jump in EX nor a reset squashes it (R138). In program order that word is fetched after the store, though not in time (R62; log entry
5). -/
def storesToFollower (p : Params) (rst : Bool) (s : State) : Bool :=
  (fetchedInEX s && memStoresTo p s s.idex.pc) ||
  (fetchedInID s && !rst && !s.idex.ctl.j && memStoresTo p s s.ifid.pc)

/-- The cycle makes the program one that R62 gives no meaning: it fetches a word stored to before, this cycle's store included (R60),
or stores to the word of a younger instruction fetched already. -/
def cycleFetchesStored (p : Params) (rst : Bool) (s : State) : Bool :=
  (fetches p rst s && storedTo p s.pc (memStage p s).2.calls) || storesToFollower p rst s

/-! ### The pipeline layer -/

/-- One clock cycle, or its refusal (R62). -/
def clock (p : Params) (rst : Bool) (s : State) : Host.Outcome State Fault Refusal :=
  if cycleFetchesStored p rst s then .refused .selfModifying else .next (cycle p rst s)

/-- `n` clock cycles with the same `rst`. -/
def clocks (p : Params) (rst : Bool) : Nat → State → Host.Outcome State Fault Refusal
  | 0, s => .next s
  | n + 1, s => andThen (clock p rst s) fun t => clocks p rst n t

/-- Clock cycles until `halted_out` is seen or `n` have run (R141). -/
def runClocks (p : Params) : Nat → State → Host.Outcome State Fault Refusal
  | 0, s => .next s
  | n + 1, s => andThen (clock p false s) fun t => if haltSignal s then .next t else runClocks p n t

/-- The driver's `step()`: one clock cycle (40_pipeline.md R120, R142). -/
def driverStep (c : Setup) (rst : Bool) (s : State) : Host.Outcome State Fault Refusal :=
  c.admitted fun p => clock p rst s

/-- The driver's `run()` (R141), with at most `n` cycles. -/
def runPipeline (c : Setup) (n : Nat) (s : State) : Host.Outcome State Fault Refusal :=
  c.admitted fun p => runClocks p n s

/-- The driver's `reset()` (R142; 70_reset_and_hazards.md R300 to R303): `RESET_CYCLES` reset cycles, then `CYC` is zeroed. Fewer
than 3 cycles are refused (R302; D21, log entry 18). -/
def resetSequence (c : Setup) (s : State) : Host.Outcome State Fault Refusal :=
  c.admitted fun p =>
    if resetCyclesOk p.resetCycles then andThen (clocks p true p.resetCycles s) fun t => .next { t with cyc := 0 }
    else .refused .tooFewResetCycles

/-- The caller-level hard reset (70_reset_and_hazards.md R304): after `reset()`, the power-on state of 10_state.md R39, which R304 says
the environment gets, so every latch field, operand fields included, is at its power-on value (0 by D29; U20 would allow any). The flags,
which R304 excepts, the instruction memory and the call record are what `reset()` leaves; that, and that `haltedOut` is false, is the
model's choice (log entry 25). -/
def hardReset (c : Setup) (s : State) : Host.Outcome State Fault Refusal :=
  andThen (resetSequence c s) fun t => .next { State.reset with flags := t.flags, imem := t.imem, calls := t.calls }

/-! ### The instruction layer -/

/-- One instruction, or its refusal (R62). -/
def insnClock (p : Params) (s : State) : Host.Outcome State Fault Refusal :=
  if insnFetchesStored p s then .refused .selfModifying else .next (insnStep p s)

/-- Instructions until one ends the run or `n` have run (R144). -/
def runInsnClocks (p : Params) : Nat → State → Host.Outcome State Fault Refusal
  | 0, s => .next s
  | n + 1, s => andThen (insnClock p s) fun t => if t.haltedOut then .next t else runInsnClocks p n t

/-- One instruction of the instruction-layer machine for any table (R146). -/
def insnDriverStep (c : Setup) (s : State) : Host.Outcome State Fault Refusal :=
  c.admitted fun p => insnClock p s

/-- A run of the instruction-layer machine (R144), with at most `n` instructions. -/
def runProgram (c : Setup) (n : Nat) (s : State) : Host.Outcome State Fault Refusal :=
  c.admitted fun p => runInsnClocks p n s

end Sys2Proof.Machine
end

