-- ==== Sys2Proof/Safety.lean ====
section
/-!
DEFINITION. The terms the claims use: flags said in plain arithmetic, what an instruction leaves unchanged, the invariants of
both layers, and when the two words behind a HLT are quiet.
-/

namespace Sys2Proof.Machine

/-! ### Flags in plain arithmetic -/

/-- The flags of `x + y + cin`: `N` the sign bit of the wrapped sum, `C` the carry out of bit 15, `Z` a zero result, `V` a signed
sum outside -32768 to 32767 (40_pipeline.md R129, 41_alu_register.md R182, R190). -/
def sumFlags (x y : Word) (cin : Nat) : Flags where
  n := decide (32768 ≤ (x.toNat + y.toNat + cin) % 65536)
  c := decide (65536 ≤ x.toNat + y.toNat + cin)
  z := decide ((x.toNat + y.toNat + cin) % 65536 = 0)
  v := decide (x.toInt + y.toInt + cin < -32768 ∨ 32767 < x.toInt + y.toInt + cin)

/-- The flags of `x - y - borrow`: `C = 1` means no borrow out, that is `x` at least `y + borrow` unsigned; `V` a signed difference
out of range (40_pipeline.md R129, 41_alu_register.md R183, R189). -/
def differenceFlags (x y : Word) (borrow : Nat) : Flags where
  n := decide (32768 ≤ ((x.toNat : Int) - y.toNat - borrow) % 65536)
  c := decide (y.toNat + borrow ≤ x.toNat)
  z := decide (((x.toNat : Int) - y.toNat - borrow) % 65536 = 0)
  v := decide (x.toInt - y.toInt - borrow < -32768 ∨ 32767 < x.toInt - y.toInt - borrow)

/-- The flags of a bitwise result: `N` and `Z` from the word, `C = 0`, `V = 0` (41_alu_register.md R184 to R187). -/
def bitwiseFlags (f : Word) : Flags where
  n := f.msb
  c := false
  z := decide (f = 0x0000)
  v := false

/-! ### Frames of instruction steps -/

/-- Every general register but `c` reads as before. -/
def RegsExcept (c : RegIdx) (s t : State) : Prop := ∀ r, r ≠ c → t.reg r = s.reg r

/-- Every general register reads as before. -/
def RegsSame (s t : State) : Prop := ∀ r, t.reg r = s.reg r

/-- Every word of data memory reads as before and no data-port call is made. -/
def NoDataAccess (s t : State) : Prop := (∀ a, t.dmem.read a = s.dmem.read a) ∧ t.calls = s.calls

/-- What no instruction step touches: the latches, `CYC`, the instruction memory (20_memory.md R52, R56; log entry 1). -/
def PipelineUntouched (s t : State) : Prop :=
  t.ifid = s.ifid ∧ t.idex = s.idex ∧ t.exmem = s.exmem ∧ t.memwb = s.memwb ∧ t.cyc = s.cyc ∧
    ∀ a, t.imem.read a = s.imem.read a

/-- The frame of an instruction that writes at most register `c`, makes no data access and goes on at the next address. -/
def WritesOnly (c : RegIdx) (s t : State) : Prop :=
  RegsExcept c s t ∧ NoDataAccess s t ∧ PipelineUntouched s t ∧ t.pc = s.pc + 1 ∧ t.haltedOut = false

/-- The frame of an instruction that changes no register, flag or memory word: a jump, a branch, a NOP. -/
def ChangesOnlyPC (s t : State) : Prop :=
  RegsSame s t ∧ t.flags = s.flags ∧ NoDataAccess s t ∧ PipelineUntouched s t

/-- The instructions whose control word has `FI` deasserted (10_state.md R27, 45_control_transfer.md R253). -/
def writesFlags : Instr → Bool
  | .cmp _ _ | .add _ _ _ | .sub _ _ _ | .and _ _ _ | .or _ _ _ | .xor _ _ _ | .not _ _ | .adc _ _ _ | .sbc _ _ _ => true
  | .cmpi _ _ | .addi _ _ _ | .subi _ _ _ | .andi _ _ _ | .ori _ _ _ | .xori _ _ _ => true
  | .nop | .hlt | .load _ _ _ | .store _ _ _ | .li _ _ | .lui _ _ | .unused19 | .unused23 => false
  | .jmp _ | .jr _ _ | .jalr _ _ _ | .beq _ | .bne _ | .blt _ | .bgt _ | .bltu _ | .bgtu _ => false

/-- The register an instruction writes, if it writes one (files 41 to 46). -/
def destination : Instr → Option RegIdx
  | .load c _ _ | .li c _ | .lui c _ => some c
  | .add c _ _ | .sub c _ _ | .and c _ _ | .or c _ _ | .xor c _ _ | .not c _ | .adc c _ _ | .sbc c _ _ => some c
  | .addi c _ _ | .subi c _ _ | .andi c _ _ | .ori c _ _ | .xori c _ _ | .jalr c _ _ => some c
  | .nop | .hlt | .store _ _ _ | .cmp _ _ | .cmpi _ _ | .unused19 | .unused23 | .jmp _ | .jr _ _ => none
  | .beq _ | .bne _ | .blt _ | .bgt _ | .bltu _ | .bgtu _ => none

/-- The address an instruction stores to, with the register values of `s` (43_load_store.md R219, R221). -/
def storeAddress (s : State) : Instr → Option Word
  | .store _ a imm => some (effectiveAddress (s.reg a) imm)
  | .load _ _ _ | .li _ _ | .lui _ _ | .nop | .hlt | .unused19 | .unused23 => none
  | .add _ _ _ | .sub _ _ _ | .and _ _ _ | .or _ _ _ | .xor _ _ _ | .not _ _ | .adc _ _ _ | .sbc _ _ _ | .cmp _ _ => none
  | .addi _ _ _ | .subi _ _ _ | .andi _ _ _ | .ori _ _ _ | .xori _ _ _ | .cmpi _ _ => none
  | .jmp _ | .jr _ _ | .jalr _ _ _ | .beq _ | .bne _ | .blt _ | .bgt _ | .bltu _ | .bgtu _ => none

/-! ### Invariants -/

/-- Both memories are in canonical form. -/
abbrev State.memoriesCanonical (s : State) : Prop := s.imem.wf ∧ s.dmem.wf

/-- The fetch-address invariant (40_pipeline.md R143): a word fetched at `p` is in ID when `PC = p + 1` and in EX when
`PC = p + 2`. Under `REFDT` the slots that hold no fetched instruction are the NOP word in ID and `NOPCW` in EX. -/
abbrev State.fetchAddressInv (s : State) : Prop :=
  (s.ifid.ins ≠ 0x0000 → s.pc = s.ifid.pc + 1) ∧ (s.idex.ctl ≠ nopcw → s.pc = s.idex.pc + 2)

/-- A control word asks for at most one data access, with its store operand asserted (30_encoding.md R90 W1, W2). -/
abbrev CtlWord.accessOk (cw : CtlWord) : Prop := CtlWord.w1 cw = true ∧ CtlWord.w2 cw = true

/-- Every control word in flight asks for at most one data access (20_memory.md R56). -/
abbrev State.accessInv (s : State) : Prop :=
  CtlWord.accessOk s.idex.ctl ∧ CtlWord.accessOk s.exmem.ctl ∧ CtlWord.accessOk s.memwb.ctl

/-! ### The end of a run -/

/-- A control word without EX or MEM effect: what R312 asks of the two words behind a HLT. -/
def CtlWord.quiet (cw : CtlWord) : Bool := cw.fi && !cw.j && !cw.memLoad && !cw.memStore

/-- The two words behind the HLT at `pc` decode to quiet control words, at the flags the HLT leaves (R144, R312). -/
def quietShadow (p : Params) (fl : Flags) (imem : Memory) (pc : Word) : Prop :=
  CtlWord.quiet (lookupCtl p fl (imem.read (pc + 1))) = true ∧ CtlWord.quiet (lookupCtl p fl (imem.read (pc + 2))) = true

/-- The power-on state with a program and data in the environment's memories. -/
def loaded (imem dmem : Memory) : State := { State.reset with imem := imem, dmem := dmem }

/-- The instruction-layer machine, started at `s`, runs `n` instructions that do not halt and is then at `u`. -/
def reachesRunning (p : Params) (n : Nat) (s u : State) : Prop :=
  u = insnSteps p n s ∧ ∀ j, j ≤ n → 0 < j → (insnSteps p j s).haltedOut = false

/-! ### Self-modifying programs -/

/-- One of the calls, youngest first, is a store that lands in the storage of the instruction word at `a` (20_memory.md R62). -/
def StoreReached (p : Params) (calls : List PortCall) (a : Word) : Prop :=
  ∃ newer b v older, calls = newer ++ PortCall.store b v :: older ∧ p.instrAlias (dataCalls older) b a = true

/-- MEM stores, in this cycle, to the word of a younger instruction on the taken path that has been fetched already: the word in EX, or
the word in ID unless a taken jump in EX or a reset squashes it (20_memory.md R62, 40_pipeline.md R138, R143; log entries 5, 32). -/
def StoreReachesFollower (p : Params) (rst : Bool) (s : State) : Prop :=
  CtlWord.memStore s.exmem.ctl = true ∧ CtlWord.j s.exmem.ctl = false ∧ s.pc = s.ifid.pc + 1 ∧
    ((s.ifid.pc = s.idex.pc + 1 ∧ p.instrAlias (dataCalls s.calls) s.exmem.y s.idex.pc = true) ∨
      (rst = false ∧ CtlWord.j s.idex.ctl = false ∧ p.instrAlias (dataCalls s.calls) s.exmem.y s.ifid.pc = true))

end Sys2Proof.Machine
end

