-- ==== Sys2Proof/Certificates/Slice0/Obligations.lean ====
section
/-!
DEFINITION. The statements for the provers. Each docstring names the rules of spec/ it formalises; where a rule rests on a decision
of the spec (D<n>), the log entry of notes/assumptions that records it is named too. Every instruction's effect rests on the
reference table's decision D12 (log entry 9) and its opcode on D1 (log entry 7).
-/

open Sys2Proof Sys2Proof.Machine

/-! ### Encoding -/

/-- Decoding the canonical word of an instruction gives the instruction back, for every instruction and every operand (30_encoding.md
R71 to R82, R94; D1, D25, log entries 7 and 26). -/
def Obligations.DecodeEncodeRoundTrip : Prop := ∀ i : Instr, decode (encode i) = i

/-- Encoding what a word decodes to gives the word with its ignored bits cleared: no bit that matters is lost (30_encoding.md R72 to
R80, R84; log entry 26). -/
def Obligations.EncodeOfDecodeClearsIgnoredBits : Prop := ∀ w : Word, encode (decode w) = w &&& usedBits w

/-- Ignored bits have no effect on registers, flags, memory, calls or `pc`, and never cause a stall, under `REFDT` (30_encoding.md R84;
log entry 26). -/
def Obligations.IgnoredBitsHaveNoEffect : Prop :=
  (∀ (w : Word) (s : State), insnEffect Params.ref (w &&& usedBits w) s = insnEffect Params.ref w s) ∧
  ∀ (p : Params) (rst : Bool) (w : Word) (s : State), p.dt = refdt →
    stall p rst { s with ifid := { s.ifid with ins := w &&& usedBits w } } =
      stall p rst { s with ifid := { s.ifid with ins := w } }

/-- Words written out in the spec decode to their instructions, at least one for each format (95_test_vectors.md section 2.7; D1, log
entry 7). -/
def Obligations.SpecWordsDecode : Prop :=
  decode 0x0000 = .nop ∧ decode 0x0800 = .hlt ∧ decode 0x17D0 = .load 7 6 (-16) ∧ decode 0x1F05 = .store 1 0 (-3) ∧
  decode 0x2780 = .li 7 (-128) ∧ decode 0x2812 = .lui 0 0x12 ∧ decode 0x3028 = .cmp 1 2 ∧ decode 0x3A04 = .add 2 0 1 ∧
  decode 0x6100 = .not 1 0 ∧ decode 0x685F = .cmpi 2 (-1) ∧ decode 0x911F = .xori 1 0 (-1) ∧ decode 0xA7FE = .jmp (-2) ∧
  decode 0xA8E0 = .jr 7 0 ∧ decode 0xB720 = .jalr 7 1 0 ∧ decode 0xCFFD = .bne (-3) ∧ decode 0xF52C = .adc 5 1 3

/-- The fields of a STORE word: the immediate's bits 4 to 2 stand in bits 10 to 8 and its bits 1 to 0 in bits 1 to 0, `A` in bits 7 to 5,
`B` in bits 4 to 2, and no register is written (30_encoding.md R75). -/
def Obligations.StoreWordSplitsItsImmediate : Prop :=
  ∀ (w : Word) (b a : RegIdx) (imm : BitVec 5), decode w = .store b a imm →
    (imm.toNat / 4 = w.toNat / 256 % 8 ∧ imm.toNat % 4 = w.toNat % 4 ∧ a.toNat = w.toNat / 32 % 8 ∧ b.toNat = w.toNat / 4 % 8) ∧
    ∀ s : State, ∃ t, exec (decode w) s = .next t ∧ RegsSame s t

/-- A written immediate in its range reaches the machine with its value: `imm5` and `imm11` sign-extended, `imm8` modulo 256; one out
of range is not assembled (30_encoding.md R81, R94; D25, D37, log entries 12 and 27). -/
def Obligations.WrittenImmediatesReachTheirValue : Prop :=
  (∀ n : Int, -16 ≤ n → n ≤ 15 → ∃ b, assembleImm5 n = some b ∧ (sext5 b).toInt = n) ∧
  (∀ n : Int, -1024 ≤ n → n ≤ 1023 → ∃ b, assembleImm11 n = some b ∧ (sext11 b).toInt = n) ∧
  (∀ n : Int, -128 ≤ n → n ≤ 255 → ∃ b, assembleImm8 n = some b ∧ (b.toNat : Int) = n % 256) ∧
  ∀ n : Int, (n < -16 ∨ 15 < n → assembleImm5 n = none) ∧ (n < -1024 ∨ 1023 < n → assembleImm11 n = none) ∧
    (n < -128 ∨ 255 < n → assembleImm8 n = none)

/-- The displacement a jump is assembled with takes it to its target, and every displacement is the one assembled for the target it
reaches (30_encoding.md R96, 45_control_transfer.md R240; D17, log entries 15 and 27). -/
def Obligations.DisplacementIsInverseOfTarget : Prop :=
  (∀ (p target : Word) (d : BitVec 11), assembleDisplacement p target = some d → relativeTarget p d = target) ∧
  ∀ (p : Word) (d : BitVec 11), assembleDisplacement p (relativeTarget p d) = some d

/-! ### The decode table -/

/-- The decode-table address is `(N << 8) | (V << 7) | (Z << 6) | (C << 5) | opcode`, so all four flags and every opcode bit are
address bits (30_encoding.md R88). -/
def Obligations.TableAddressPlacesFlagsAndOpcode : Prop :=
  ∀ (fl : Flags) (op : BitVec 5), (tableAddress fl op).toNat =
    fl.n.toNat * 256 + fl.v.toNat * 128 + fl.z.toNat * 64 + fl.c.toNat * 32 + op.toNat

/-- `REFDT` meets W1 to W4 at all 512 addresses, each condition written out over the signals (30_encoding.md R90; D11, D12, D31, D32,
log entry 9). -/
def Obligations.ReferenceTableIsWellFormed : Prop :=
  tableWellFormed refdt = true ∧ ∀ k : BitVec 9, ∀ cw, cw = refdt k →
    ¬(CtlWord.memLoad cw = true ∧ CtlWord.memStore cw = true) ∧
    (CtlWord.memStore cw = true → CtlWord.assertStoreOp cw = true) ∧
    (k.toNat % 32 = 0 → CtlWord.fi cw = true ∧ CtlWord.hlt cw = false ∧ CtlWord.j cw = false ∧ CtlWord.memLoad cw = false ∧
      CtlWord.memStore cw = false ∧ CtlWord.wrl cw = false ∧ CtlWord.wrh cw = false ∧ CtlWord.wben cw = false) ∧
    (CtlWord.leftUnused cw = true → CtlWord.rs0 cw = false) ∧
    (CtlWord.rightUnused cw = true → ¬(CtlWord.selRightOp cw = 0 ∧ CtlWord.rs1 cw = true) ∧
      ¬(CtlWord.selStoreOp cw = 0 ∧ (CtlWord.memStore cw = true ∨ (CtlWord.writeBackSrcFlag cw = true ∧
        (CtlWord.wrl cw = true ∨ CtlWord.wrh cw = true ∨ CtlWord.wben cw = true)))))

/-- `REFDT` resolves the six branch conditions and the carry-in of ADC and SBC at every flag value (30_encoding.md R92, R93; D12, D13,
log entries 9 and 10). -/
def Obligations.ReferenceTableResolvesFlags : Prop :=
  ∀ fl : Flags,
    refdt (tableAddress fl 24) = (if fl.z = true then 0x6019B8 else 0x600020) ∧
    refdt (tableAddress fl 25) = (if fl.z = false then 0x6019B8 else 0x600020) ∧
    refdt (tableAddress fl 26) = (if fl.n ≠ fl.v then 0x6019B8 else 0x600020) ∧
    refdt (tableAddress fl 27) = (if fl.z = false ∧ fl.n = fl.v then 0x6019B8 else 0x600020) ∧
    refdt (tableAddress fl 28) = (if fl.c = false then 0x6019B8 else 0x600020) ∧
    refdt (tableAddress fl 29) = (if fl.c = true ∧ fl.z = false then 0x6019B8 else 0x600020) ∧
    CtlWord.c0 (refdt (tableAddress fl 30)) = fl.c ∧ CtlWord.c0 (refdt (tableAddress fl 31)) = fl.c

/-! ### The instruction step -/

/-- A step is `exec` of the instruction the word at `pc` decodes to, on the state with that fetch recorded; every instruction is
well-formed by its type (40_pipeline.md R146; log entries 1 and 19). -/
def Obligations.StepRunsDecodedInstruction : Prop :=
  ∀ (s : State) (i : Instr), decode (s.imem.read s.pc) = i → step s = exec i (s.logCall (.fetch s.pc))

/-- No step faults and none is refused, whatever the word and the state (60_exceptions.md R270, R271, 30_encoding.md R83; log entry
21). -/
def Obligations.EveryStepAnswersNext : Prop := ∀ s : State, ∃ t, step s = .next t

/-- ADD and ADC complete: the wrapped sum, with the Carry flag for ADC, all four flags in plain arithmetic, and nothing else but `pc`
(41_alu_register.md R180, R182, R188; flags D8, log entry 10). -/
def Obligations.AddAndAdcWriteSumAndFlags : Prop :=
  ∀ (c a b : RegIdx) (s : State),
    (∃ t, exec (.add c a b) s = .next t ∧ t.reg c = s.reg a + s.reg b ∧
      t.flags = sumFlags (s.reg a) (s.reg b) 0 ∧ WritesOnly c s t) ∧
    (∃ t, exec (.adc c a b) s = .next t ∧ t.reg c = s.reg a + s.reg b + (if s.flags.c then 1 else 0) ∧
      t.flags = sumFlags (s.reg a) (s.reg b) s.flags.c.toNat ∧ WritesOnly c s t)

/-- SUB and SBC complete: the wrapped difference, less the pending borrow for SBC (`C = 1` means none), all four flags in plain
arithmetic, and nothing else but `pc` (41_alu_register.md R180, R183, R189; flags D8, log entry 10). -/
def Obligations.SubAndSbcWriteDifferenceAndFlags : Prop :=
  ∀ (c a b : RegIdx) (s : State),
    (∃ t, exec (.sub c a b) s = .next t ∧ t.reg c = s.reg a - s.reg b ∧
      t.flags = differenceFlags (s.reg a) (s.reg b) 0 ∧ WritesOnly c s t) ∧
    (∃ t, exec (.sbc c a b) s = .next t ∧ t.reg c = s.reg a - s.reg b - (if s.flags.c then 0 else 1) ∧
      t.flags = differenceFlags (s.reg a) (s.reg b) (if s.flags.c then 0 else 1) ∧ WritesOnly c s t)

/-- AND, OR, XOR and NOT complete: the bitwise result, `N` and `Z` from it, `C = 0` and `V = 0`, and nothing else but `pc`
(41_alu_register.md R180, R184 to R187; `C` and `V` are D8, log entry 10). -/
def Obligations.LogicalRegisterWritesResult : Prop :=
  ∀ (c a b : RegIdx) (s : State),
    (∃ t, exec (.and c a b) s = .next t ∧ t.reg c = s.reg a &&& s.reg b ∧ t.flags = bitwiseFlags (t.reg c) ∧ WritesOnly c s t) ∧
    (∃ t, exec (.or c a b) s = .next t ∧ t.reg c = s.reg a ||| s.reg b ∧ t.flags = bitwiseFlags (t.reg c) ∧ WritesOnly c s t) ∧
    (∃ t, exec (.xor c a b) s = .next t ∧ t.reg c = s.reg a ^^^ s.reg b ∧ t.flags = bitwiseFlags (t.reg c) ∧ WritesOnly c s t) ∧
    (∃ t, exec (.not c a) s = .next t ∧ t.reg c = ~~~(s.reg a) ∧ t.flags = bitwiseFlags (t.reg c) ∧ WritesOnly c s t)

/-- CMP and CMPI complete: the flags of the difference, whose bits say equal, at least unsigned and less signed, and nothing else but
`pc` (41_alu_register.md R181, 42_alu_immediate.md R201; flags D8, log entry 10). -/
def Obligations.CompareSetsFlagsOnly : Prop :=
  ∀ (a b : RegIdx) (imm : BitVec 5) (s : State),
    (∃ t, exec (.cmp a b) s = .next t ∧ t.flags = differenceFlags (s.reg a) (s.reg b) 0 ∧
      (t.flags.z = true ↔ s.reg a = s.reg b) ∧ (t.flags.c = true ↔ (s.reg b).toNat ≤ (s.reg a).toNat) ∧
      (t.flags.n ≠ t.flags.v ↔ (s.reg a).toInt < (s.reg b).toInt) ∧
      RegsSame s t ∧ NoDataAccess s t ∧ PipelineUntouched s t ∧ t.pc = s.pc + 1 ∧ t.haltedOut = false) ∧
    (∃ t, exec (.cmpi a imm) s = .next t ∧ t.flags = differenceFlags (s.reg a) (sext5 imm) 0 ∧
      (t.flags.z = true ↔ s.reg a = sext5 imm) ∧ (t.flags.c = true ↔ (sext5 imm).toNat ≤ (s.reg a).toNat) ∧
      (t.flags.n ≠ t.flags.v ↔ (s.reg a).toInt < imm.toInt) ∧
      RegsSame s t ∧ NoDataAccess s t ∧ PipelineUntouched s t ∧ t.pc = s.pc + 1 ∧ t.haltedOut = false)

/-- ADDI and SUBI complete: the register plus or minus the sign-extended immediate, all four flags in plain arithmetic, and nothing
else but `pc` (42_alu_immediate.md R200, R202, R203; D8, D37, log entries 10 and 12). -/
def Obligations.AddiAndSubiWriteResultAndFlags : Prop :=
  ∀ (c a : RegIdx) (imm : BitVec 5) (s : State),
    (∃ t, exec (.addi c a imm) s = .next t ∧ t.reg c = s.reg a + BitVec.ofInt 16 imm.toInt ∧
      t.flags = sumFlags (s.reg a) (BitVec.ofInt 16 imm.toInt) 0 ∧ WritesOnly c s t) ∧
    (∃ t, exec (.subi c a imm) s = .next t ∧ t.reg c = s.reg a - BitVec.ofInt 16 imm.toInt ∧
      t.flags = differenceFlags (s.reg a) (BitVec.ofInt 16 imm.toInt) 0 ∧ WritesOnly c s t)

/-- ANDI, ORI and XORI complete with the sign-extended immediate: the bitwise result, `N` and `Z` from it, `C = 0` and `V = 0`, and
nothing else but `pc` (42_alu_immediate.md R200, R204 to R206; D8, D37, log entries 10 and 12). -/
def Obligations.LogicalImmediateWritesResult : Prop :=
  ∀ (c a : RegIdx) (imm : BitVec 5) (s : State),
    (∃ t, exec (.andi c a imm) s = .next t ∧ t.reg c = s.reg a &&& BitVec.ofInt 16 imm.toInt ∧
      t.flags = bitwiseFlags (t.reg c) ∧ WritesOnly c s t) ∧
    (∃ t, exec (.ori c a imm) s = .next t ∧ t.reg c = s.reg a ||| BitVec.ofInt 16 imm.toInt ∧
      t.flags = bitwiseFlags (t.reg c) ∧ WritesOnly c s t) ∧
    (∃ t, exec (.xori c a imm) s = .next t ∧ t.reg c = s.reg a ^^^ BitVec.ofInt 16 imm.toInt ∧
      t.flags = bitwiseFlags (t.reg c) ∧ WritesOnly c s t)

/-- LOAD completes: the destination gets the word at base plus displacement, read before the destination is written; one data-port
call; flags and every memory word unchanged (43_load_store.md R219, R220; plain memory is D27, log entry 3). -/
def Obligations.LoadReadsOneWord : Prop :=
  ∀ (c a : RegIdx) (imm : BitVec 5) (s : State),
    ∃ t, exec (.load c a imm) s = .next t ∧
      t.reg c = s.dmem.read (effectiveAddress (s.reg a) imm) ∧ RegsExcept c s t ∧ t.flags = s.flags ∧
      (∀ x, t.dmem.read x = s.dmem.read x) ∧
      t.calls = .load (effectiveAddress (s.reg a) imm) (s.dmem.read (effectiveAddress (s.reg a) imm)) :: s.calls ∧
      PipelineUntouched s t ∧ t.pc = s.pc + 1 ∧ t.haltedOut = false

/-- STORE completes: the word at base plus displacement becomes the data register's, every other word of memory is unchanged; one
data-port call; no register and no flag changes (43_load_store.md R219, R221; plain memory is D27, log entry 3). -/
def Obligations.StoreWritesOneWord : Prop :=
  ∀ (b a : RegIdx) (imm : BitVec 5) (s : State),
    ∃ t, exec (.store b a imm) s = .next t ∧
      t.dmem.read (effectiveAddress (s.reg a) imm) = s.reg b ∧
      (∀ x, x ≠ effectiveAddress (s.reg a) imm → t.dmem.read x = s.dmem.read x) ∧
      t.calls = .store (effectiveAddress (s.reg a) imm) (s.reg b) :: s.calls ∧
      RegsSame s t ∧ t.flags = s.flags ∧ PipelineUntouched s t ∧ t.pc = s.pc + 1 ∧ t.haltedOut = false

/-- The effective address is base plus signed displacement modulo 2^16, in -16 to 15 (43_load_store.md R219, 00_scope.md R10). -/
def Obligations.EffectiveAddressWraps : Prop :=
  ∀ (base : Word) (imm : BitVec 5),
    ((effectiveAddress base imm).toNat : Int) = (base.toNat + imm.toInt) % 65536 ∧ -16 ≤ imm.toInt ∧ imm.toInt ≤ 15

/-- LI and LUI complete: LI writes the sign-extended immediate to the whole register, LUI the high byte only; flags and the rest
unchanged (44_immediate_moves.md R230, R231; D23, log entry 12). -/
def Obligations.ImmediateMovesWriteTheirBytes : Prop :=
  ∀ (c : RegIdx) (imm : BitVec 8) (s : State),
    (∃ t, exec (.li c imm) s = .next t ∧ (t.reg c).toInt = imm.toInt ∧ t.flags = s.flags ∧ WritesOnly c s t) ∧
    (∃ t, exec (.lui c imm) s = .next t ∧ (t.reg c).toNat = imm.toNat * 256 + (s.reg c).toNat % 256 ∧
      t.flags = s.flags ∧ WritesOnly c s t)

/-- JMP and JR complete: `pc` is the relative target `pc + 2 + imm11`, or the register plus `imm5`, both signed and modulo 2^16, and
nothing else changes (45_control_transfer.md R240 to R242, R250; D17, log entry 15). -/
def Obligations.JmpAndJrMovePC : Prop :=
  ∀ (a : RegIdx) (imm : BitVec 5) (d : BitVec 11) (s : State),
    (∃ t, exec (.jmp d) s = .next t ∧ (t.pc.toNat : Int) = (s.pc.toNat + 2 + d.toInt) % 65536 ∧ ChangesOnlyPC s t ∧
      t.haltedOut = false) ∧
    (∃ t, exec (.jr a imm) s = .next t ∧ (t.pc.toNat : Int) = ((s.reg a).toNat + imm.toInt) % 65536 ∧ ChangesOnlyPC s t ∧
      t.haltedOut = false)

/-- JALR completes: the target uses the register as it was before the link `pc + 1` is written, also when both are the same register
(45_control_transfer.md R240, R243; link value D24, log entry 12). -/
def Obligations.JalrLinksAndJumps : Prop :=
  ∀ (c a : RegIdx) (imm : BitVec 5) (s : State),
    ∃ t, exec (.jalr c a imm) s = .next t ∧ (t.pc.toNat : Int) = ((s.reg a).toNat + imm.toInt) % 65536 ∧
      t.reg c = s.pc + 1 ∧ RegsExcept c s t ∧ t.flags = s.flags ∧ NoDataAccess s t ∧ PipelineUntouched s t ∧
      t.haltedOut = false

/-- Each conditional branch completes: the relative target when its condition on the flags holds, `pc + 1` when not, and nothing else
changes (45_control_transfer.md R244 to R251; conditions D13, target D17, log entries 10 and 15). -/
def Obligations.BranchesDecideOnFlags : Prop :=
  ∀ (d : BitVec 11) (s : State),
    (∃ t, exec (.beq d) s = .next t ∧ t.pc = (if s.flags.z = true then s.pc + 2 + BitVec.ofInt 16 d.toInt else s.pc + 1) ∧
      ChangesOnlyPC s t ∧ t.haltedOut = false) ∧
    (∃ t, exec (.bne d) s = .next t ∧ t.pc = (if s.flags.z = false then s.pc + 2 + BitVec.ofInt 16 d.toInt else s.pc + 1) ∧
      ChangesOnlyPC s t ∧ t.haltedOut = false) ∧
    (∃ t, exec (.blt d) s = .next t ∧
      t.pc = (if s.flags.n ≠ s.flags.v then s.pc + 2 + BitVec.ofInt 16 d.toInt else s.pc + 1) ∧
      ChangesOnlyPC s t ∧ t.haltedOut = false) ∧
    (∃ t, exec (.bgt d) s = .next t ∧
      t.pc = (if s.flags.z = false ∧ s.flags.n = s.flags.v then s.pc + 2 + BitVec.ofInt 16 d.toInt else s.pc + 1) ∧
      ChangesOnlyPC s t ∧ t.haltedOut = false) ∧
    (∃ t, exec (.bltu d) s = .next t ∧ t.pc = (if s.flags.c = false then s.pc + 2 + BitVec.ofInt 16 d.toInt else s.pc + 1) ∧
      ChangesOnlyPC s t ∧ t.haltedOut = false) ∧
    (∃ t, exec (.bgtu d) s = .next t ∧
      t.pc = (if s.flags.c = true ∧ s.flags.z = false then s.pc + 2 + BitVec.ofInt 16 d.toInt else s.pc + 1) ∧
      ChangesOnlyPC s t ∧ t.haltedOut = false)

/-- NOP: every word 0x0000 to 0x07FF is a NOP, it completes with `pc + 1` and nothing else, its control word is `NOPCW` at every flag
value, and any well-formed table decodes opcode 0 to a control word without effect (46_system.md R260). -/
def Obligations.NopOnlyAdvancesPC : Prop :=
  (∀ w : Word, w.toNat ≤ 0x07FF → decode w = .nop) ∧
  (∀ s : State, ∃ t, exec .nop s = .next t ∧ ChangesOnlyPC s t ∧ t.pc = s.pc + 1 ∧ t.haltedOut = false) ∧
  (∀ fl : Flags, refdt (tableAddress fl 0) = 0x600020) ∧
  ∀ (dt : DecodeTable) (fl : Flags), tableWellFormed dt = true → CtlWord.w3 (dt (tableAddress fl 0)) = true

/-- The unused opcodes: every word 0x9800 to 0x9FFF and 0xB800 to 0xBFFF is one, and both complete exactly as NOP does (46_system.md
R262; the numbers are from general knowledge, D1, D36, log entries 7 and 26). -/
def Obligations.UnusedOpcodesActAsNop : Prop :=
  (∀ w : Word, 0x9800 ≤ w.toNat → w.toNat ≤ 0x9FFF → decode w = .unused19) ∧
  (∀ w : Word, 0xB800 ≤ w.toNat → w.toNat ≤ 0xBFFF → decode w = .unused23) ∧
  ∀ s : State, ∃ t, exec .unused19 s = .next t ∧ exec .unused23 s = .next t ∧ exec .nop s = .next t

/-- HLT: every word 0x0800 to 0x0FFF is a HLT; it completes, its one effect beside `pc + 1` is that the run ends, and a further step is
an ordinary one (46_system.md R261, 60_exceptions.md R285; D39, log entry 16). -/
def Obligations.HltOnlyEndsTheRun : Prop :=
  (∀ w : Word, 0x0800 ≤ w.toNat → w.toNat ≤ 0x0FFF → decode w = .hlt) ∧
  ∀ s : State, ∃ t, exec .hlt s = .next t ∧ ChangesOnlyPC s t ∧ t.pc = s.pc + 1 ∧ t.haltedOut = true ∧ ∃ u, step t = .next u

/-- What each instruction leaves unchanged: every register but its destination, the flags unless it is an ALU instruction, every memory
word but the one at its store address, the latches, `CYC` and the instruction memory; and it makes at most one data-port call. That
`step` leaves the latches and `CYC` alone is the model's choice, log entry 1; the rest follows from the generic step and the meanings
under `REFDT` (40_pipeline.md R146, 10_state.md R27, 20_memory.md R52, R56, 41_alu_register.md R180 to R181,
42_alu_immediate.md R200 to R201, 43_load_store.md R219 to R221, 44_immediate_moves.md R230 to R231, 45_control_transfer.md R250, R253, 46_system.md R260 to R262; D12,
log entries 1 and 9). -/
def Obligations.EveryInstructionKeepsItsFrame : Prop :=
  ∀ (i : Instr) (s t : State), exec i s = .next t →
    (∀ r, destination i ≠ some r → t.reg r = s.reg r) ∧ (writesFlags i = false → t.flags = s.flags) ∧
    (∀ a, storeAddress s i ≠ some a → t.dmem.read a = s.dmem.read a) ∧ PipelineUntouched s t ∧
    ∃ l, t.calls = l ++ s.calls ∧ l.length ≤ 1 ∧ ∀ c ∈ l, PortCall.isData c = true

/-! ### Short sequences -/

/-- After `CMP`, each branch is taken exactly when its comparison of the two registers holds: equal, unequal, signed and unsigned less
and greater (30_encoding.md R92, 45_control_transfer.md R244 to R249; D8, D13, log entry 10). -/
def Obligations.CompareThenBranchMeansItsName : Prop :=
  ∀ (a b : RegIdx) (d : BitVec 11) (s : State), ∃ t, exec (.cmp a b) s = .next t ∧
    (∃ u, exec (.beq d) t = .next u ∧ u.pc = if s.reg a = s.reg b then relativeTarget t.pc d else t.pc + 1) ∧
    (∃ u, exec (.bne d) t = .next u ∧ u.pc = if s.reg a ≠ s.reg b then relativeTarget t.pc d else t.pc + 1) ∧
    (∃ u, exec (.blt d) t = .next u ∧ u.pc = if (s.reg a).toInt < (s.reg b).toInt then relativeTarget t.pc d else t.pc + 1) ∧
    (∃ u, exec (.bgt d) t = .next u ∧ u.pc = if (s.reg b).toInt < (s.reg a).toInt then relativeTarget t.pc d else t.pc + 1) ∧
    (∃ u, exec (.bltu d) t = .next u ∧ u.pc = if (s.reg a).toNat < (s.reg b).toNat then relativeTarget t.pc d else t.pc + 1) ∧
    (∃ u, exec (.bgtu d) t = .next u ∧ u.pc = if (s.reg b).toNat < (s.reg a).toNat then relativeTarget t.pc d else t.pc + 1)

/-- `LI rC, K & 0xFF` then `LUI rC, K >> 8` loads any constant `K` and leaves the flags and the other registers (44_immediate_moves.md
R232; D23, log entry 12). -/
def Obligations.LiThenLuiLoadsConstant : Prop :=
  ∀ (c : RegIdx) (k : Word) (s : State), ∃ t u,
    exec (.li c (k.extractLsb' 0 8)) s = .next t ∧ exec (.lui c (k.extractLsb' 8 8)) t = .next u ∧
      u.reg c = k ∧ RegsExcept c s u ∧ u.flags = s.flags ∧ u.pc = s.pc + 2

/-- A LOAD right after a STORE, from the address stored to, gets the stored word (43_load_store.md R222, 20_memory.md R59; plain memory
is D27, log entry 3). -/
def Obligations.LoadAfterStoreReturnsStoredWord : Prop :=
  ∀ (b a c a' : RegIdx) (imm imm' : BitVec 5) (s : State),
    effectiveAddress (s.reg a') imm' = effectiveAddress (s.reg a) imm →
    ∃ t u, exec (.store b a imm) s = .next t ∧ exec (.load c a' imm') t = .next u ∧ u.reg c = s.reg b

/-- ADD then ADC adds, and SUB then SBC subtracts, 32-bit numbers held in register pairs, with the carry or no-borrow of the whole in
`C`, when the low result overwrites no operand of the high step (41_alu_register.md R188, R189; D8, log entry 10). -/
def Obligations.CarryChainsToThirtyTwoBits : Prop :=
  ∀ (cl ch al ah bl bh : RegIdx) (s : State), cl ≠ ah → cl ≠ bh → cl ≠ ch →
    (∃ t u, exec (.add cl al bl) s = .next t ∧ exec (.adc ch ah bh) t = .next u ∧
      u.reg ch ++ u.reg cl = (s.reg ah ++ s.reg al) + (s.reg bh ++ s.reg bl) ∧
      (u.flags.c = true ↔ 2 ^ 32 ≤ (s.reg ah ++ s.reg al).toNat + (s.reg bh ++ s.reg bl).toNat)) ∧
    (∃ t u, exec (.sub cl al bl) s = .next t ∧ exec (.sbc ch ah bh) t = .next u ∧
      u.reg ch ++ u.reg cl = (s.reg ah ++ s.reg al) - (s.reg bh ++ s.reg bl) ∧
      (u.flags.c = true ↔ (s.reg bh ++ s.reg bl).toNat ≤ (s.reg ah ++ s.reg al).toNat))

/-! ### The two layers agree -/

/-- Every meaning of files 41 to 46 is the generic step R146 with the control word of `REFDT`, for every word, its ignored bits
included, and every state; so `step` is the generic machine's step (40_pipeline.md R146, 30_encoding.md R91; D12, log entry 9). -/
def Obligations.MeaningsAreTheGenericStep : Prop :=
  (∀ (w : Word) (s : State), exec (decode w) s = .next (insnEffect Params.ref w s)) ∧
  ∀ s : State, step s = .next (insnStep Params.ref s)

/-- Sequential equivalence: for every well-formed table, data environment and program, when the instruction-layer machine reaches its
HLT and the two words behind it are quiet, the pipeline's run ends too, with the same registers, flags, data memory and sequence of
data-port calls (40_pipeline.md R144; log entries 1, 16 and 17). -/
def Obligations.PipelineRunMatchesInstructionRun : Prop :=
  ∀ (p : Params) (imem dmem : Memory) (n : Nat) (u : State),
    reachesRunning p n (loaded imem dmem) u → (insnStep p u).haltedOut = true →
    quietShadow p (insnStep p u).flags imem u.pc →
    ∃ k, (runCycles p k (loaded imem dmem)).haltedOut = true ∧
      (runCycles p k (loaded imem dmem)).regs = (insnStep p u).regs ∧
      (runCycles p k (loaded imem dmem)).flags = (insnStep p u).flags ∧
      (runCycles p k (loaded imem dmem)).dmem = (insnStep p u).dmem ∧
      dataCalls (runCycles p k (loaded imem dmem)).calls = dataCalls (insnStep p u).calls

/-! ### Invariants -/

/-- The power-on values (10_state.md R39, R40; the latches' fields other than the control words are D29, log entries 6 and 24; memory,
output and call record are log entries 3, 16 and 19). -/
def Obligations.PowerOnValues : Prop :=
  (∀ r, State.reset.reg r = 0x0000) ∧ State.reset.flags = ⟨false, false, false, false⟩ ∧ State.reset.pc = 0x0000 ∧
  State.reset.ifid = ⟨0x0000, 0x0000⟩ ∧ State.reset.idex = ⟨0x600020, 0, 0, 0, 0⟩ ∧
  State.reset.exmem = ⟨0x600020, 0, 0, 0, 0⟩ ∧ State.reset.memwb = ⟨0x600020, 0, 0, 0, 0⟩ ∧ State.reset.cyc = 0 ∧
  (∀ a, State.reset.imem.read a = 0x0000) ∧ (∀ a, State.reset.dmem.read a = 0x0000) ∧
  State.reset.haltedOut = false ∧ State.reset.calls = []

/-- The power-on state meets every invariant below (10_state.md R39; log entries 2 and 6). -/
def Obligations.PowerOnMeetsInvariants : Prop :=
  State.memoriesCanonical State.reset ∧ State.fetchAddressInv State.reset ∧ State.accessInv State.reset

/-- Every instruction step keeps both memories in canonical form (20_memory.md R51, R55; the form is the model's, log entry 2). -/
def Obligations.StepKeepsMemoriesCanonical : Prop :=
  ∀ s t : State, State.memoriesCanonical s → step s = .next t → State.memoriesCanonical t

/-- Every clock cycle, reset cycles included, keeps both memories in canonical form when the environment's store does (20_memory.md R51,
R55; the form is the model's, log entry 2). -/
def Obligations.CycleKeepsMemoriesCanonical : Prop :=
  ∀ (p : Params) (rst : Bool) (s : State), (∀ m a v, Memory.wf m → Memory.wf (p.dstore m a v)) →
    State.memoriesCanonical s → State.memoriesCanonical (cycle p rst s)

/-- The fetch-address invariant: a word fetched at `p` is in ID when `PC = p + 1` and in EX when `PC = p + 2`, kept by every cycle under
`REFDT`, with stalls, jumps and reset (40_pipeline.md R143; D17, log entry 15). -/
def Obligations.CycleKeepsFetchAddress : Prop :=
  ∀ (p : Params) (rst : Bool) (s : State), p.dt = refdt → State.fetchAddressInv s → State.fetchAddressInv (cycle p rst s)

/-- With a well-formed table no latch ever holds a control word that asks for two data accesses or for a store without its operand
(30_encoding.md R90, 20_memory.md R56; D11, D31, log entry 9). -/
def Obligations.CycleKeepsSingleAccessControl : Prop :=
  ∀ (p : Params) (rst : Bool) (s : State), State.accessInv s → State.accessInv (cycle p rst s)

/-! ### The pipeline, cycle by cycle -/

/-- At most one data-port call in a cycle (20_memory.md R56, 30_encoding.md R90 W1; D31, log entry 9). -/
def Obligations.AtMostOneDataCallPerCycle : Prop :=
  ∀ (p : Params) (rst : Bool) (s : State), State.accessInv s →
    ∃ l, dataCalls (cycle p rst s).calls = l ++ dataCalls s.calls ∧ l.length ≤ 1

/-- The calls of a cycle are those its output signals announce: MEM's access first, then one fetch at `PC` unless the cycle is a reset
cycle or stalled (60_exceptions.md R286, 20_memory.md R60, R64; D19, D34, log entries 15 and 19). -/
def Obligations.PortCallsFollowTheSignals : Prop :=
  ∀ (p : Params) (rst : Bool) (s : State), ∃ v,
    (outputSignals p rst s).fetchStrobe = (!rst && !stall p rst s) ∧
    (cycle p rst s).calls =
      (if (outputSignals p rst s).fetchStrobe then [.fetch (outputSignals p rst s).fetchAddress] else []) ++
      (if (outputSignals p rst s).storeStrobe then
        [.store (outputSignals p rst s).dataAddress (outputSignals p rst s).storeData] else []) ++
      (if (outputSignals p rst s).loadStrobe then [.load (outputSignals p rst s).dataAddress v] else []) ++ s.calls

/-- Only the write-back commit changes a register, at most one register in a cycle, in either byte or both, to the committed value's
byte, and none when no write enable is asserted; reset, squash and stall change none (10_state.md R21). -/
def Obligations.OnlyTheCommitWritesARegister : Prop :=
  ∀ (p : Params) (rst : Bool) (s : State),
    (∀ r, r ≠ s.memwb.selC → (cycle p rst s).reg r = s.reg r) ∧
    (hiByte ((cycle p rst s).reg s.memwb.selC) = hiByte (s.reg s.memwb.selC) ∨
      hiByte ((cycle p rst s).reg s.memwb.selC) = hiByte (wbValue s)) ∧
    (loByte ((cycle p rst s).reg s.memwb.selC) = loByte (s.reg s.memwb.selC) ∨
      loByte ((cycle p rst s).reg s.memwb.selC) = loByte (wbValue s)) ∧
    (CtlWord.wben s.memwb.ctl = false → CtlWord.wrl s.memwb.ctl = false → CtlWord.wrh s.memwb.ctl = false →
      (cycle p rst s).regs = s.regs)

/-- Which bytes the commit writes: `WBEN` both, `WRL` the low one, `WRH` the high one, any combination their union (40_pipeline.md
R121, R122; the combination is D9, log entry 8). -/
def Obligations.CommitWritesEnabledLanes : Prop :=
  ∀ (p : Params) (rst : Bool) (s : State),
    (cycle p rst s).reg s.memwb.selC =
      (if CtlWord.wben s.memwb.ctl || CtlWord.wrh s.memwb.ctl then hiByte (wbValue s) else hiByte (s.reg s.memwb.selC)) ++
      (if CtlWord.wben s.memwb.ctl || CtlWord.wrl s.memwb.ctl then loByte (wbValue s) else loByte (s.reg s.memwb.selC))

/-- `FL' = if FI then FL else flags_ALU`; a bubble in EX leaves the flags alone; and the decode lookup of the same cycle uses `FL'`, which
is the spec's own choice D14 (40_pipeline.md R130, R134; log entry 13). -/
def Obligations.FlagsFollowFlagInhibit : Prop :=
  ∀ (p : Params) (rst : Bool) (s : State),
    (cycle p rst s).flags = (if CtlWord.fi s.idex.ctl then s.flags else (exAlu s).flags) ∧
    idCtl p s = p.dt (tableAddress (cycle p rst s).flags (opcode s.ifid.ins)) ∧
    (s.idex.ctl = nopcw → (cycle p rst s).flags = s.flags)

/-- The cycle is a function of the state, `rst`, the table and the word this cycle's data load returns: two environments that agree on
that word, and on the store, give the same next state and the same calls (20_memory.md R63). -/
def Obligations.CycleDependsOnTheLoadedWordOnly : Prop :=
  ∀ (p q : Params) (rst : Bool) (s : State), p.dt = q.dt →
    (CtlWord.memLoad s.exmem.ctl = true →
      p.dload (dataCalls s.calls) s.dmem s.exmem.y = q.dload (dataCalls s.calls) s.dmem s.exmem.y) →
    (CtlWord.memStore s.exmem.ctl = true → p.dstore s.dmem s.exmem.y s.exmem.sop = q.dstore s.dmem s.exmem.y s.exmem.sop) →
    cycle p rst s = cycle q rst s

/-- A stall is caused by a load in EX only, never coincides with a taken jump or reset, and lasts exactly one cycle (40_pipeline.md R136,
R137; D16, D18, log entry 14). -/
def Obligations.StallLastsOneCycle : Prop :=
  ∀ (p : Params) (rst : Bool) (s : State), stall p rst s = true →
    CtlWord.memLoad s.idex.ctl = true ∧ CtlWord.j s.idex.ctl = false ∧ rst = false ∧
      ∀ rst', stall p rst' (cycle p rst s) = false

/-- Forwarding: a register read in ID without hazard has the value the register file will hold once the instructions in WB, MEM and EX
have committed in program order, byte lane by byte lane (40_pipeline.md R122, R135, 70_reset_and_hazards.md R311; D15, log entry 14). -/
def Obligations.ForwardingReadsProgramOrderValue : Prop :=
  ∀ (p : Params) (s : State) (r : RegIdx), regHazard s r = false →
    idRead p s r = readReg
      (commitReg s.idex.ctl (fieldC s.idex.ins)
        (if CtlWord.writeBackSrcFlag s.idex.ctl then exStoreOp s else (memStage p (cycle p false s)).1)
        (commitReg s.exmem.ctl s.exmem.selC
          (if CtlWord.writeBackSrcFlag s.exmem.ctl then s.exmem.sop else (memStage p s).1) (committedRegs s))) r

/-- A taken jump in EX squashes the two younger slots and sends `PC` to its target; its fetch is made and discarded (40_pipeline.md R138,
R139, 70_reset_and_hazards.md R313; D17, log entry 15). -/
def Obligations.TakenJumpSquashesTwoSlots : Prop :=
  ∀ (p : Params) (s : State), CtlWord.j s.idex.ctl = true →
    (cycle p false s).idex.ctl = nopcw ∧ (cycle p false s).ifid = ⟨0x0000, s.pc⟩ ∧
    (cycle p false s).pc = (if CtlWord.jabs s.idex.ctl then (exAlu s).f else s.pc + (exAlu s).f) ∧
    fetches p false s = true

/-- The fields of a bubble other than its control word reach nothing observable: registers, flags, `PC`, the younger latches, memory and
calls do not depend on them (10_state.md R34 to R36, 40_pipeline.md R138; D33, log entry 24). -/
def Obligations.BubbleContentsAreUnobservable : Prop :=
  ∀ (p : Params) (rst : Bool) (s : State),
    (∀ a b ins pc : Word, ∀ x, x = cycle p rst { s with idex := ⟨nopcw, 0, 0, 0, 0⟩ } →
      ∀ y, y = cycle p rst { s with idex := ⟨nopcw, a, b, ins, pc⟩ } →
      x.exmem.ctl = nopcw ∧ y.exmem.ctl = nopcw ∧ { y with exmem := x.exmem } = x) ∧
    (∀ (v sop pc : Word) (c : RegIdx), ∀ x, x = cycle p rst { s with exmem := ⟨nopcw, 0, 0, 0, 0⟩ } →
      ∀ y, y = cycle p rst { s with exmem := ⟨nopcw, v, sop, c, pc⟩ } →
      x.memwb.ctl = nopcw ∧ y.memwb.ctl = nopcw ∧ { y with memwb := x.memwb } = x) ∧
    (∀ (v sop pc : Word) (c : RegIdx),
      cycle p rst { s with memwb := ⟨nopcw, v, sop, c, pc⟩ } = cycle p rst { s with memwb := ⟨nopcw, 0, 0, 0, 0⟩ })

/-- With nothing but NOP words in the instruction memory, from power-on and with any well-formed table, every cycle leaves registers,
flags and data memory alone, makes one fetch and advances `PC` by 1 (40_pipeline.md R145; log entries 3 and 9). -/
def Obligations.NopStreamOnlyAdvancesPC : Prop :=
  ∀ (p : Params) (n : Nat),
    (cycles p false n State.reset).regs = State.reset.regs ∧ (cycles p false n State.reset).flags = State.reset.flags ∧
    (cycles p false n State.reset).dmem = State.reset.dmem ∧ (cycles p false n State.reset).pc = BitVec.ofNat 16 n ∧
    (cycles p false n State.reset).cyc = n ∧
    (cycles p false n State.reset).calls = ((List.range n).map fun k => PortCall.fetch (BitVec.ofNat 16 k)).reverse

/-- A HLT fetched in a cycle without stall or taken jump, and not squashed in the next, is in WB four cycles later, so the run ends
with the fifth cycle (40_pipeline.md R123, R141, 70_reset_and_hazards.md R312; D20, log entries 16 and 17). -/
def Obligations.HltReachesWriteBackFourCyclesAfterFetch : Prop :=
  ∀ (p : Params) (s : State), p.dt = refdt → decode (s.imem.read s.pc) = .hlt → fetches p false s = true →
    CtlWord.j s.idex.ctl = false → CtlWord.j (cycle p false s).idex.ctl = false →
    haltSignal (cycles p false 4 s) = true ∧ (cycles p false 4 s).memwb.pc = s.pc ∧
      (cycle p false (cycles p false 4 s)).haltedOut = true

/-! ### Reset -/

/-- The state `reset()` leaves, from any state: `PC` and IFID zero, every control word `NOPCW`, the latch fields of the table of R303,
`CYC` zero, no fetch made (70_reset_and_hazards.md R302, R303, 10_state.md R37; D21, D22, log entry 18). -/
def Obligations.ResetEmptiesThePipeline : Prop :=
  ∀ (c : Setup) (s t : State), resetSequence c s = .next t →
    t.pc = 0x0000 ∧ t.ifid = ⟨0x0000, 0x0000⟩ ∧ t.idex = ⟨nopcw, t.reg 0, t.reg 0, 0x0000, 0x0000⟩ ∧
    t.exmem = ⟨nopcw, 0x0000, t.reg 0, 0, 0x0000⟩ ∧ t.memwb.ctl = nopcw ∧
    (4 ≤ c.resetCycles → t.memwb = ⟨nopcw, 0x0000, t.reg 0, 0, 0x0000⟩) ∧ t.cyc = 0 ∧ t.imem = s.imem ∧
    t.calls.filter (fun c => !PortCall.isData c) = s.calls.filter (fun c => !PortCall.isData c)

/-- What happens to the instructions in flight when reset is asserted for at least three cycles: those in WB, MEM and EX complete, in
order, with their register writes, memory accesses and flags; those in ID and IF leave no trace (70_reset_and_hazards.md R301; D22, log
entry 18). -/
def Obligations.ResetCompletesTheThreeOldest : Prop :=
  ∀ (p : Params) (s : State) (n : Nat), 3 ≤ n →
    (cycles p true n s).flags = exFlags s ∧
    (cycles p true n s).dmem = (memStage p (cycle p true s)).2.dmem ∧
    (cycles p true n s).calls = (memStage p (cycle p true s)).2.calls ∧
    (cycles p true n s).regs =
      commitReg s.idex.ctl (fieldC s.idex.ins)
        (if CtlWord.writeBackSrcFlag s.idex.ctl then exStoreOp s else (memStage p (cycle p true s)).1)
        (commitReg s.exmem.ctl s.exmem.selC
          (if CtlWord.writeBackSrcFlag s.exmem.ctl then s.exmem.sop else (memStage p s).1) (committedRegs s))

/-- Ill-formed parameters are refused by every driver operation of both layers before anything runs; well-formed ones are not, where the
environment keeps the two spaces separate: each operation is then the plain cycle, instruction or run (60_exceptions.md R272,
30_encoding.md R90, 70_reset_and_hazards.md R302; D21, D32, log entries 9 and 18). -/
def Obligations.IllFormedParametersAreRefused : Prop :=
  (∀ (c : Setup) (rst : Bool) (n : Nat) (s : State), tableWellFormed c.dt = false →
    driverStep c rst s = .refused .illFormedTable ∧ runPipeline c n s = .refused .illFormedTable ∧
    resetSequence c s = .refused .illFormedTable ∧ hardReset c s = .refused .illFormedTable ∧
    insnDriverStep c s = .refused .illFormedTable ∧ runProgram c n s = .refused .illFormedTable) ∧
  (∀ (p : Params) (s : State), p.resetCycles < 3 → resetSequence p.toSetup s = .refused .tooFewResetCycles ∧
    hardReset p.toSetup s = .refused .tooFewResetCycles) ∧
  ∀ (p : Params) (rst : Bool) (n : Nat) (s : State), (∀ l b a, p.instrAlias l b a = false) →
    driverStep p.toSetup rst s = .next (cycle p rst s) ∧ runPipeline p.toSetup n s = .next (runCycles p n s) ∧
    insnDriverStep p.toSetup s = .next (insnStep p s) ∧ runProgram p.toSetup n s = .next (runInsns p n s) ∧
    (3 ≤ p.resetCycles → resetSequence p.toSetup s = .next { cycles p true p.resetCycles s with cyc := 0 })

/-- The hard reset answers wherever `reset()` does, with the power-on value of every register, latch field, `PC`, `CYC` and data memory
word; the flags are those `reset()` leaves, and with the instruction memory and the call record that is the model's choice
(70_reset_and_hazards.md R304, 10_state.md R39; latch operand fields are D29; log entries 24 and 25). -/
def Obligations.HardResetZeroesRegistersAndMemory : Prop :=
  ∀ (c : Setup) (s t : State), resetSequence c s = .next t →
    ∃ u, hardReset c s = .next u ∧ (∀ r, u.reg r = 0x0000) ∧ (∀ a, u.dmem.read a = 0x0000) ∧ u.pc = 0x0000 ∧
      u.ifid = State.reset.ifid ∧ u.idex = State.reset.idex ∧ u.exmem = State.reset.exmem ∧ u.memwb = State.reset.memwb ∧ u.cyc = 0 ∧
      u.flags = t.flags ∧ u.imem = t.imem ∧ u.calls = t.calls

/-! ### Self-modifying programs -/

/-- In an environment that aliases the ports, one instruction of the driver is refused exactly when it fetches a word stored to before; one
cycle exactly when it fetches such a word, this cycle's store included, or when MEM stores to the word of a younger, unsquashed
instruction fetched already. Everything else answers the plain instruction or cycle. Which fetches count as later and how a fetched word
is known are the model's choices (20_memory.md R62, 70_reset_and_hazards.md R315; D26, log entries 5, 31 and 32). -/
def Obligations.SelfModifyingFetchesAreRefused : Prop :=
  ∀ (p : Params) (rst : Bool) (s : State),
    (StoreReached p s.calls s.pc → insnDriverStep p.toSetup s = .refused .selfModifying) ∧
    (¬StoreReached p s.calls s.pc → insnDriverStep p.toSetup s = .next (insnStep p s)) ∧
    ((fetches p rst s = true ∧ StoreReached p (memStage p s).2.calls s.pc) ∨ StoreReachesFollower p rst s →
      driverStep p.toSetup rst s = .refused .selfModifying) ∧
    (¬((fetches p rst s = true ∧ StoreReached p (memStage p s).2.calls s.pc) ∨ StoreReachesFollower p rst s) →
      driverStep p.toSetup rst s = .next (cycle p rst s))

/-- A run that is answered from power-on never fetched a word after storing to it, in either layer, and is the plain run (20_memory.md
R62, 70_reset_and_hazards.md R315; D26, log entries 5, 31 and 32). -/
def Obligations.AnsweredRunsNeverFetchStoredWords : Prop :=
  ∀ (p : Params) (imem dmem : Memory) (n : Nat) (t : State),
    (runProgram p.toSetup n (loaded imem dmem) = .next t ∨ runPipeline p.toSetup n (loaded imem dmem) = .next t →
      ∀ newer a older, t.calls = newer ++ PortCall.fetch a :: older → ¬StoreReached p older a) ∧
    (runProgram p.toSetup n (loaded imem dmem) = .next t → t = runInsns p n (loaded imem dmem)) ∧
    (runPipeline p.toSetup n (loaded imem dmem) = .next t → t = runCycles p n (loaded imem dmem))
end

