-- ==== Sys2Proof/Laws/Decode.lean ====
section
/-!
SUPPORT. Each field of each format's word (spec 30_encoding.md R71 to R80), so that no proof about the decoder opens a concatenation.
-/

namespace Sys2Proof

@[simp] theorem opcode_formX (op : BitVec 5) : opcode (formX op) = op := by
  unfold opcode formX
  ext i hi
  simp only [BitVec.getElem_extractLsb', BitVec.getLsbD_append]
  interval_cases i <;> simp

@[simp] theorem opcode_formRRR (op : BitVec 5) (c a b : RegIdx) : opcode (formRRR op c a b) = op := by
  unfold opcode formRRR
  ext i hi
  simp only [BitVec.getElem_extractLsb', BitVec.getLsbD_append]
  interval_cases i <;> simp

theorem fieldC_formRRR (op : BitVec 5) (c a b : RegIdx) : fieldC (formRRR op c a b) = c := by
  unfold fieldC formRRR
  ext i hi
  simp only [BitVec.getElem_extractLsb', BitVec.getLsbD_append]
  interval_cases i <;> simp

theorem fieldA_formRRR (op : BitVec 5) (c a b : RegIdx) : fieldA (formRRR op c a b) = a := by
  unfold fieldA formRRR
  ext i hi
  simp only [BitVec.getElem_extractLsb', BitVec.getLsbD_append]
  interval_cases i <;> simp

theorem fieldB_formRRR (op : BitVec 5) (c a b : RegIdx) : fieldB (formRRR op c a b) = b := by
  unfold fieldB formRRR
  ext i hi
  simp only [BitVec.getElem_extractLsb', BitVec.getLsbD_append]
  interval_cases i <;> simp

@[simp] theorem opcode_formRRI (op : BitVec 5) (c a : RegIdx) (imm : BitVec 5) : opcode (formRRI op c a imm) = op := by
  unfold opcode formRRI
  ext i hi
  simp only [BitVec.getElem_extractLsb', BitVec.getLsbD_append]
  interval_cases i <;> simp

theorem fieldC_formRRI (op : BitVec 5) (c a : RegIdx) (imm : BitVec 5) : fieldC (formRRI op c a imm) = c := by
  unfold fieldC formRRI
  ext i hi
  simp only [BitVec.getElem_extractLsb', BitVec.getLsbD_append]
  interval_cases i <;> simp

theorem fieldA_formRRI (op : BitVec 5) (c a : RegIdx) (imm : BitVec 5) : fieldA (formRRI op c a imm) = a := by
  unfold fieldA formRRI
  ext i hi
  simp only [BitVec.getElem_extractLsb', BitVec.getLsbD_append]
  interval_cases i <;> simp

theorem fieldImm5_formRRI (op : BitVec 5) (c a : RegIdx) (imm : BitVec 5) : fieldImm5 (formRRI op c a imm) = imm := by
  unfold fieldImm5 formRRI
  ext i hi
  simp only [BitVec.getElem_extractLsb', BitVec.getLsbD_append]
  interval_cases i <;> simp

@[simp] theorem opcode_formIRR (op : BitVec 5) (b a : RegIdx) (imm : BitVec 5) : opcode (formIRR op b a imm) = op := by
  unfold opcode formIRR
  ext i hi
  simp only [BitVec.getElem_extractLsb', BitVec.getLsbD_append, BitVec.getLsbD_extractLsb']
  interval_cases i <;> simp

theorem fieldA_formIRR (op : BitVec 5) (b a : RegIdx) (imm : BitVec 5) : fieldA (formIRR op b a imm) = a := by
  unfold fieldA formIRR
  ext i hi
  simp only [BitVec.getElem_extractLsb', BitVec.getLsbD_append, BitVec.getLsbD_extractLsb']
  interval_cases i <;> simp

theorem fieldB_formIRR (op : BitVec 5) (b a : RegIdx) (imm : BitVec 5) : fieldB (formIRR op b a imm) = b := by
  unfold fieldB formIRR
  ext i hi
  simp only [BitVec.getElem_extractLsb', BitVec.getLsbD_append, BitVec.getLsbD_extractLsb']
  interval_cases i <;> simp

theorem fieldSimm5_formIRR (op : BitVec 5) (b a : RegIdx) (imm : BitVec 5) : fieldSimm5 (formIRR op b a imm) = imm := by
  unfold fieldSimm5 formIRR
  ext i hi
  simp only [BitVec.getElem_extractLsb', BitVec.getLsbD_append, BitVec.getElem_append, BitVec.getLsbD_extractLsb']
  interval_cases i <;> simp

@[simp] theorem opcode_formRII (op : BitVec 5) (c : RegIdx) (imm : BitVec 8) : opcode (formRII op c imm) = op := by
  unfold opcode formRII
  ext i hi
  simp only [BitVec.getElem_extractLsb', BitVec.getLsbD_append]
  interval_cases i <;> simp

theorem fieldC_formRII (op : BitVec 5) (c : RegIdx) (imm : BitVec 8) : fieldC (formRII op c imm) = c := by
  unfold fieldC formRII
  ext i hi
  simp only [BitVec.getElem_extractLsb', BitVec.getLsbD_append]
  interval_cases i <;> simp

theorem fieldImm8_formRII (op : BitVec 5) (c : RegIdx) (imm : BitVec 8) : fieldImm8 (formRII op c imm) = imm := by
  unfold fieldImm8 formRII
  ext i hi
  simp only [BitVec.getElem_extractLsb', BitVec.getLsbD_append]
  interval_cases i <;> simp

@[simp] theorem opcode_formIII (op : BitVec 5) (imm : BitVec 11) : opcode (formIII op imm) = op := by
  unfold opcode formIII
  ext i hi
  simp only [BitVec.getElem_extractLsb', BitVec.getLsbD_append]
  interval_cases i <;> simp

theorem fieldImm11_formIII (op : BitVec 5) (imm : BitVec 11) : fieldImm11 (formIII op imm) = imm := by
  unfold fieldImm11 formIII
  ext i hi
  simp only [BitVec.getElem_extractLsb', BitVec.getLsbD_append]
  interval_cases i <;> simp

@[simp] theorem opcode_formXRI (op : BitVec 5) (a : RegIdx) (imm : BitVec 5) : opcode (formXRI op a imm) = op := by
  unfold opcode formXRI
  ext i hi
  simp only [BitVec.getElem_extractLsb', BitVec.getLsbD_append]
  interval_cases i <;> simp

theorem fieldA_formXRI (op : BitVec 5) (a : RegIdx) (imm : BitVec 5) : fieldA (formXRI op a imm) = a := by
  unfold fieldA formXRI
  ext i hi
  simp only [BitVec.getElem_extractLsb', BitVec.getLsbD_append]
  interval_cases i <;> simp

theorem fieldImm5_formXRI (op : BitVec 5) (a : RegIdx) (imm : BitVec 5) : fieldImm5 (formXRI op a imm) = imm := by
  unfold fieldImm5 formXRI
  ext i hi
  simp only [BitVec.getElem_extractLsb', BitVec.getLsbD_append]
  interval_cases i <;> simp

@[simp] theorem opcode_formXRR (op : BitVec 5) (a b : RegIdx) : opcode (formXRR op a b) = op := by
  unfold opcode formXRR
  ext i hi
  simp only [BitVec.getElem_extractLsb', BitVec.getLsbD_append]
  interval_cases i <;> simp

theorem fieldA_formXRR (op : BitVec 5) (a b : RegIdx) : fieldA (formXRR op a b) = a := by
  unfold fieldA formXRR
  ext i hi
  simp only [BitVec.getElem_extractLsb', BitVec.getLsbD_append]
  interval_cases i <;> simp

theorem fieldB_formXRR (op : BitVec 5) (a b : RegIdx) : fieldB (formXRR op a b) = b := by
  unfold fieldB formXRR
  ext i hi
  simp only [BitVec.getElem_extractLsb', BitVec.getLsbD_append]
  interval_cases i <;> simp

@[simp] theorem opcode_formXRX (op : BitVec 5) (c a : RegIdx) : opcode (formXRX op c a) = op := by
  unfold opcode formXRX
  ext i hi
  simp only [BitVec.getElem_extractLsb', BitVec.getLsbD_append]
  interval_cases i <;> simp

theorem fieldC_formXRX (op : BitVec 5) (c a : RegIdx) : fieldC (formXRX op c a) = c := by
  unfold fieldC formXRX
  ext i hi
  simp only [BitVec.getElem_extractLsb', BitVec.getLsbD_append]
  interval_cases i <;> simp

theorem fieldA_formXRX (op : BitVec 5) (c a : RegIdx) : fieldA (formXRX op c a) = a := by
  unfold fieldA formXRX
  ext i hi
  simp only [BitVec.getElem_extractLsb', BitVec.getLsbD_append]
  interval_cases i <;> simp

/-- The ignored bits of format X are 0 in its canonical word (R84). -/
theorem formX_ignored (op : BitVec 5) : formX op &&& 0xF800#16 = formX op := by
  unfold formX
  apply BitVec.eq_of_getLsbD_eq
  intro i hi
  simp only [BitVec.getLsbD_and, BitVec.getLsbD_append]
  interval_cases i <;> simp

/-- The ignored bits of format RRR are 0 in its canonical word (R84). -/
theorem formRRR_ignored (op : BitVec 5) (c a b : RegIdx) : formRRR op c a b &&& 0xFFFC#16 = formRRR op c a b := by
  unfold formRRR
  apply BitVec.eq_of_getLsbD_eq
  intro i hi
  simp only [BitVec.getLsbD_and, BitVec.getLsbD_append]
  interval_cases i <;> simp

/-- The ignored bits of format XRI are 0 in its canonical word (R84). -/
theorem formXRI_ignored (op : BitVec 5) (a : RegIdx) (imm : BitVec 5) : formXRI op a imm &&& 0xF8FF#16 = formXRI op a imm := by
  unfold formXRI
  apply BitVec.eq_of_getLsbD_eq
  intro i hi
  simp only [BitVec.getLsbD_and, BitVec.getLsbD_append]
  interval_cases i <;> simp

/-- The ignored bits of format XRR are 0 in its canonical word (R84). -/
theorem formXRR_ignored (op : BitVec 5) (a b : RegIdx) : formXRR op a b &&& 0xF8FC#16 = formXRR op a b := by
  unfold formXRR
  apply BitVec.eq_of_getLsbD_eq
  intro i hi
  simp only [BitVec.getLsbD_and, BitVec.getLsbD_append]
  interval_cases i <;> simp

/-- The ignored bits of format XRX are 0 in its canonical word (R84). -/
theorem formXRX_ignored (op : BitVec 5) (c a : RegIdx) : formXRX op c a &&& 0xFFE0#16 = formXRX op c a := by
  unfold formXRX
  apply BitVec.eq_of_getLsbD_eq
  intro i hi
  simp only [BitVec.getLsbD_and, BitVec.getLsbD_append]
  interval_cases i <;> simp

/-- A format without ignored bits. -/
theorem word_and_all (w : Word) : w &&& 0xFFFF#16 = w := by
  ext i hi
  simp only [BitVec.getElem_and]
  interval_cases i <;> simp

end Sys2Proof
end

