-- ==== Sys2Proof/Laws/DecodeTable.lean ====
section
/-!
SUPPORT. The table address (spec 30_encoding.md R88): its fields give back the flags and the opcode.
-/

namespace Sys2Proof.Machine

@[simp] theorem addressFlags_tableAddress (fl : Flags) (op : BitVec 5) : addressFlags (tableAddress fl op) = fl := by
  cases fl
  simp only [addressFlags, tableAddress, BitVec.getLsbD_append]
  simp

@[simp] theorem extract_tableAddress (fl : Flags) (op : BitVec 5) : (tableAddress fl op).extractLsb' 0 5 = op := by
  ext i hi
  simp only [tableAddress, BitVec.getElem_extractLsb', BitVec.getLsbD_append]
  interval_cases i <;> simp

/-- Every address is the address of some flags and opcode. -/
theorem tableAddress_surjective (k : BitVec 9) : tableAddress (addressFlags k) (k.extractLsb' 0 5) = k := by
  revert k
  decide

/-- `REFDT` at an address, said over the flags and the opcode. -/
theorem refdt_lookup (fl : Flags) (w : Word) : lookupCtl Params.ref fl w = refdt (tableAddress fl (opcode w)) := rfl

end Sys2Proof.Machine
end

