-- ==== Sys2Proof/Laws/Driver.lean ====
section
/-!
SUPPORT. What each driver operation can do, said once: what it refuses, and that an answered run is the plain run of cycles or
instructions (spec 30_encoding.md R90, 20_memory.md R62).
-/

namespace Sys2Proof.Machine

@[simp] theorem andThen_next (t : State) (f : State → Host.Outcome State Fault Refusal) : andThen (.next t) f = f t := rfl
@[simp] theorem andThen_refused (r : Refusal) (f : State → Host.Outcome State Fault Refusal) :
    andThen (.refused r) f = .refused r := rfl

/-- A sequence that answers has answered its first part. -/
theorem andThen_eq_next {o : Host.Outcome State Fault Refusal} {f : State → Host.Outcome State Fault Refusal} {u : State}
    (h : andThen o f = .next u) : ∃ t, o = .next t ∧ f t = .next u := by
  cases o with
  | next t => exact ⟨t, rfl, h⟩
  | fault e => cases e
  | refused r => cases h

/-! ### Which parameters are admitted -/

/-- A well-formed table is admitted. -/
@[simp] theorem Params.check_toSetup (p : Params) : p.toSetup.check = .ok p := by
  unfold Setup.check
  split
  · rfl
  · next h => exact absurd p.wellFormed h

/-- An ill-formed table is not (30_encoding.md R90). -/
theorem Setup.check_illFormed (c : Setup) (h : tableWellFormed c.dt = false) : c.check = .error .illFormedTable := by
  unfold Setup.check
  split
  · next h' => rw [h] at h'; cases h'
  · rfl

/-- Admitted parameters go on. -/
@[simp] theorem Setup.admitted_params (p : Params) (f : Params → Host.Outcome State Fault Refusal) :
    p.toSetup.admitted f = f p := by
  unfold Setup.admitted
  split
  · next q h =>
    rw [p.check_toSetup] at h
    cases h
    rfl
  · next e h =>
    rw [p.check_toSetup] at h
    cases h

/-- An ill-formed table is refused (30_encoding.md R90). -/
theorem Setup.admitted_illFormed (c : Setup) (f : Params → Host.Outcome State Fault Refusal)
    (h : tableWellFormed c.dt = false) : c.admitted f = .refused .illFormedTable := by
  unfold Setup.admitted
  split
  · next q hq =>
    rw [c.check_illFormed h] at hq
    cases hq
  · next e he =>
    rw [c.check_illFormed h] at he
    cases he
    rfl

/-- What is answered was admitted. -/
theorem Setup.admitted_eq_next {c : Setup} {f : Params → Host.Outcome State Fault Refusal} {t : State}
    (h : c.admitted f = .next t) : ∃ p : Params, p.toSetup = c ∧ f p = .next t := by
  cases hw : tableWellFormed c.dt
  · rw [c.admitted_illFormed f hw] at h
    cases h
  · exact ⟨⟨c, hw⟩, rfl, by rw [← h]; exact (Setup.admitted_params ⟨c, hw⟩ f).symm⟩

/-! ### An answered run is the plain run -/

/-- A cycle that is answered. -/
theorem clock_eq_next {p : Params} {rst : Bool} {s t : State} (h : clock p rst s = .next t) :
    cycleFetchesStored p rst s = false ∧ t = cycle p rst s := by
  unfold clock at h
  split at h
  · cases h
  · next hf =>
    cases h
    exact ⟨by simpa using hf, rfl⟩

theorem clocks_eq_next {p : Params} {rst : Bool} {n : Nat} {s t : State} (h : clocks p rst n s = .next t) :
    t = cycles p rst n s := by
  induction n generalizing s with
  | zero => cases h; rfl
  | succ n ih =>
    obtain ⟨u, hu, ht⟩ := andThen_eq_next h
    rw [(clock_eq_next hu).2] at ht
    exact ih ht

/-- What `reset()` answers, and what that takes (70_reset_and_hazards.md R300, R302). -/
theorem resetSequence_eq_next {c : Setup} {s t : State} (h : resetSequence c s = .next t) :
    ∃ p : Params, p.toSetup = c ∧ 3 ≤ c.resetCycles ∧ t = { cycles p true c.resetCycles s with cyc := 0 } := by
  obtain ⟨p, rfl, hp⟩ := Setup.admitted_eq_next h
  split at hp
  · next hr =>
    obtain ⟨u, hu, ht⟩ := andThen_eq_next hp
    cases ht
    exact ⟨p, rfl, of_decide_eq_true hr, by rw [clocks_eq_next hu]⟩
  · cases hp

/-- An instruction that is answered. -/
theorem insnClock_eq_next {p : Params} {s t : State} (h : insnClock p s = .next t) :
    insnFetchesStored p s = false ∧ t = insnStep p s := by
  unfold insnClock at h
  split at h
  · cases h
  · next hf =>
    cases h
    exact ⟨by simpa using hf, rfl⟩

/-! ### Self-modifying programs -/

/-- What `storedTo` finds: a store of the record that lands on the word, with the calls before it. -/
theorem storedTo_iff (p : Params) (a : Word) (calls : List PortCall) : storedTo p a calls = true ↔ StoreReached p calls a := by
  induction calls with
  | nil => simp [storedTo, StoreReached]
  | cons c older ih =>
    have tail : StoreReached p older a → StoreReached p (c :: older) a := by
      rintro ⟨newer, b, v, o, rfl, h⟩
      exact ⟨c :: newer, b, v, o, rfl, h⟩
    have head : StoreReached p (c :: older) a →
        (∃ b v, c = .store b v ∧ p.instrAlias (dataCalls older) b a = true) ∨ StoreReached p older a := by
      rintro ⟨newer, b, v, o, e, h⟩
      cases newer with
      | nil =>
        cases e
        exact .inl ⟨b, v, rfl, h⟩
      | cons x xs =>
        cases e
        exact .inr ⟨xs, b, v, o, rfl, h⟩
    cases c with
    | fetch x =>
      refine ih.trans ⟨tail, fun h => ?_⟩
      obtain ⟨b, v, e, _⟩ | h := head h
      · cases e
      · exact h
    | load x y =>
      refine ih.trans ⟨tail, fun h => ?_⟩
      obtain ⟨b, v, e, _⟩ | h := head h
      · cases e
      · exact h
    | store b v =>
      rw [storedTo, Bool.or_eq_true, ih]
      constructor
      · rintro (h | h)
        · exact ⟨[], b, v, older, rfl, h⟩
        · exact tail h
      · intro h
        obtain ⟨b', v', e, h⟩ | h := head h
        · cases e
          exact .inl h
        · exact .inr h

/-! ### Separate spaces -/

/-- Where the environment aliases nothing, nothing is stored to an instruction word (20_memory.md R52). -/
theorem storedTo_separate (p : Params) (hp : ∀ l b a, p.instrAlias l b a = false) (a : Word) (calls : List PortCall) :
    storedTo p a calls = false := by
  rw [← Bool.not_eq_true, storedTo_iff]
  rintro ⟨_, b, _, older, _, h⟩
  simp [hp] at h

/-- Where the environment aliases nothing, every cycle is answered. -/
theorem clock_separate (p : Params) (hp : ∀ l b a, p.instrAlias l b a = false) (rst : Bool) (s : State) :
    clock p rst s = .next (cycle p rst s) := by
  simp [clock, cycleFetchesStored, storesToFollower, memStoresTo, storedTo_separate p hp, hp]

/-- Where the environment aliases nothing, every instruction is answered. -/
theorem insnClock_separate (p : Params) (hp : ∀ l b a, p.instrAlias l b a = false) (s : State) :
    insnClock p s = .next (insnStep p s) := by
  simp [insnClock, insnFetchesStored, storedTo_separate p hp]

end Sys2Proof.Machine
end

