-- ==== Sys2Proof/Laws/Flags.lean ====
section
/-!
SUPPORT. What the ALU's sum says once, in plain arithmetic (spec 40_pipeline.md R128, R129): the provers cite these instead of
unfolding `add3`.
-/

namespace Sys2Proof.Machine

@[simp] theorem aluResult_f (f : Word) (c v : Bool) : (aluResult f c v).f = f := rfl
@[simp] theorem aluResult_flags_n (f : Word) (c v : Bool) : (aluResult f c v).flags.n = f.getLsbD 15 := rfl
@[simp] theorem aluResult_flags_c (f : Word) (c v : Bool) : (aluResult f c v).flags.c = c := rfl
@[simp] theorem aluResult_flags_z (f : Word) (c v : Bool) : (aluResult f c v).flags.z = (f == 0x0000) := rfl
@[simp] theorem aluResult_flags_v (f : Word) (c v : Bool) : (aluResult f c v).flags.v = v := rfl
@[simp] theorem logical_f (f : Word) : (logical f).f = f := rfl

theorem logical_flags (f : Word) : (logical f).flags = bitwiseFlags f := by
  simp [logical, aluResult, bitwiseFlags, BitVec.msb_eq_getLsbD_last, Bool.beq_eq_decide_eq]

/-- The 17-bit sum does not wrap. -/
theorem sum17_toNat (x y : Word) (cin : Bool) : (sum17 x y cin).toNat = x.toNat + y.toNat + cin.toNat := by
  have hx := x.isLt
  have hy := y.isLt
  cases cin <;> simp [sum17] <;> omega

theorem add3_f_toNat (x y : Word) (cin : Bool) : (add3 x y cin).f.toNat = (x.toNat + y.toNat + cin.toNat) % 65536 := by
  simp [add3, BitVec.extractLsb'_toNat, sum17_toNat]

/-- The result of `add3` is the wrapped sum. -/
theorem add3_f (x y : Word) (cin : Bool) : (add3 x y cin).f = x + y + (BitVec.ofBool cin).setWidth 16 := by
  apply BitVec.eq_of_toNat_eq
  rw [add3_f_toNat]
  cases cin <;> simp

theorem getLsbD15_eq (w : Word) : w.getLsbD 15 = decide (32768 ≤ w.toNat) := by
  have h := BitVec.msb_eq_decide w
  simpa [BitVec.msb_eq_getLsbD_last] using h

theorem toInt_eq (w : Word) : w.toInt = if w.getLsbD 15 then (w.toNat : Int) - 65536 else w.toNat := by
  rw [getLsbD15_eq, BitVec.toInt_eq_toNat_cond]
  have := w.isLt
  simp only [decide_eq_true_eq]
  split <;> split <;> omega

/-- The flags of `add3` are those of the plain sum. -/
theorem add3_flags (x y : Word) (cin : Bool) : (add3 x y cin).flags = sumFlags x y cin.toNat := by
  have hx := x.isLt
  have hy := y.isLt
  have hf := add3_f_toNat x y cin
  have hc : cin.toNat ≤ 1 := Bool.toNat_le cin
  have hcarry : (sum17 x y cin).getLsbD 16 = decide (65536 ≤ x.toNat + y.toNat + cin.toNat) := by
    have h := BitVec.msb_eq_decide (sum17 x y cin)
    rw [sum17_toNat] at h
    simpa [BitVec.msb_eq_getLsbD_last] using h
  have hn : (add3 x y cin).f.getLsbD 15 = decide (32768 ≤ (x.toNat + y.toNat + cin.toNat) % 65536) := by
    rw [getLsbD15_eq, hf]
  have hz : ((add3 x y cin).f == 0x0000) = decide ((x.toNat + y.toNat + cin.toNat) % 65536 = 0) := by
    rw [Bool.beq_eq_decide_eq, ← hf]
    congr 1
    exact propext ⟨fun h => by simp [h], fun h => BitVec.eq_of_toNat_eq (by simpa using h)⟩
  have hv : (x.getLsbD 15 == y.getLsbD 15 && (add3 x y cin).f.getLsbD 15 != x.getLsbD 15) =
      decide (x.toInt + y.toInt + (cin.toNat : Int) < -32768 ∨ 32767 < x.toInt + y.toInt + (cin.toNat : Int)) := by
    rw [hn, toInt_eq x, toInt_eq y, getLsbD15_eq x, getLsbD15_eq y, Bool.eq_iff_iff]
    by_cases h1 : 32768 ≤ x.toNat <;> by_cases h2 : 32768 ≤ y.toNat <;>
      simp [h1, h2] <;> omega
  have e : (add3 x y cin).flags =
      { n := (add3 x y cin).f.getLsbD 15, c := (sum17 x y cin).getLsbD 16, z := (add3 x y cin).f == 0x0000
        v := x.getLsbD 15 == y.getLsbD 15 && (add3 x y cin).f.getLsbD 15 != x.getLsbD 15 } := rfl
  rw [e, hv, hn, hcarry, hz]
  rfl

/-- Adding the complement subtracts: the result. -/
theorem add3_not_f (x y : Word) (cin : Bool) :
    (add3 x (~~~y) cin).f = x - y - (BitVec.ofBool (!cin)).setWidth 16 := by
  have hx := x.isLt
  have hy := y.isLt
  apply BitVec.eq_of_toNat_eq
  rw [add3_f_toNat]
  cases cin <;> simp [BitVec.toNat_sub] <;> omega

/-- Adding the complement subtracts: the flags. -/
theorem add3_not_flags (x y : Word) (cin : Bool) :
    (add3 x (~~~y) cin).flags = differenceFlags x y (!cin).toNat := by
  have hx := x.isLt
  have hy := y.isLt
  have hny : (~~~y).toNat = 65535 - y.toNat := by simp [BitVec.toNat_not]
  have hniy : (~~~y).toInt = -y.toInt - 1 := by
    rw [toInt_eq, toInt_eq, getLsbD15_eq, getLsbD15_eq, hny]
    by_cases h : 32768 ≤ y.toNat
    · have h' : ¬ 32768 ≤ 65535 - y.toNat := by omega
      simp [h, h']; omega
    · have h' : 32768 ≤ 65535 - y.toNat := by omega
      simp [h, h']; omega
  rw [add3_flags]
  unfold sumFlags differenceFlags
  rw [hniy, hny]
  cases cin
  · refine Flags.mk.injEq .. |>.mpr ⟨?_, ?_, ?_, ?_⟩ <;>
      (rw [decide_eq_decide]; simp only [Bool.toNat_false, Bool.toNat_true, Bool.not_false]; omega)
  · refine Flags.mk.injEq .. |>.mpr ⟨?_, ?_, ?_, ?_⟩ <;>
      (rw [decide_eq_decide]; simp only [Bool.toNat_false, Bool.toNat_true, Bool.not_true]; omega)

end Sys2Proof.Machine
end

