-- ==== Sys2Proof/Laws/Memory.lean ====
section
/-!
SUPPORT. Memory: reading after a write, every other address unchanged, and the canonical form kept (spec 20_memory.md R55, R59).
-/

namespace Sys2Proof.Machine

@[simp] theorem Memory.lookup_nil (k : Nat) : Memory.lookup k [] = Config.unlistedWord := rfl

theorem Memory.lookup_cons (k : Nat) (c : Cell) (m : Memory) :
    Memory.lookup k (c :: m) = if c.1 = k then c.2 else Memory.lookup k m := rfl

theorem Memory.lookup_erase_same (k : Nat) (m : Memory) :
    Memory.lookup k (Memory.erase k m) = Config.unlistedWord := by
  induction m with
  | nil => rfl
  | cons c m ih =>
    by_cases h : c.1 = k
    · simpa [Memory.erase, h] using ih
    · simpa [Memory.erase, h, Memory.lookup_cons] using ih

theorem Memory.lookup_erase_ne (k j : Nat) (m : Memory) (hj : j ≠ k) :
    Memory.lookup j (Memory.erase k m) = Memory.lookup j m := by
  induction m with
  | nil => rfl
  | cons c m ih =>
    by_cases h : c.1 = k
    · have : c.1 ≠ j := fun e => hj (e ▸ h)
      simpa [Memory.erase, h, Memory.lookup_cons, this, Ne.symm hj] using ih
    · by_cases h2 : c.1 = j
      · simp [Memory.erase, Memory.lookup_cons, h2, hj]
      · simpa [Memory.erase, h, Memory.lookup_cons, h2] using ih

theorem Memory.lookup_insertCell_ne (k j : Nat) (v : Word) (m : Memory) (hj : j ≠ k) :
    Memory.lookup j (Memory.insertCell k v m) = Memory.lookup j m := by
  induction m with
  | nil => simp [Memory.insertCell, Memory.lookup_cons, Ne.symm hj]
  | cons c m ih =>
    unfold Memory.insertCell
    split
    · simp [Memory.lookup_cons, Ne.symm hj]
    · simp [Memory.lookup_cons, ih]

theorem Memory.lookup_insertCell_same (k : Nat) (v : Word) (m : Memory) (hm : ∀ c ∈ m, c.1 ≠ k) :
    Memory.lookup k (Memory.insertCell k v m) = v := by
  induction m with
  | nil => simp [Memory.insertCell, Memory.lookup_cons]
  | cons c m ih =>
    unfold Memory.insertCell
    split
    · simp [Memory.lookup_cons]
    · have hc : c.1 ≠ k := hm c (by simp)
      simpa [Memory.lookup_cons, hc] using ih fun d hd => hm d (by simp [hd])

theorem Memory.mem_erase (k : Nat) (m : Memory) : ∀ c ∈ Memory.erase k m, c ∈ m ∧ c.1 ≠ k := by
  intro c hc
  simpa [Memory.erase] using hc

/-- A read after a write to the same address gives the word written, in every memory. -/
@[simp] theorem Memory.read_write_same (m : Memory) (a v : Word) : (m.write a v).read a = v := by
  unfold Memory.read Memory.write
  split
  · next h => rw [Memory.lookup_erase_same, h]
  · exact Memory.lookup_insertCell_same _ _ _ fun c hc => (Memory.mem_erase _ _ c hc).2

/-- A write leaves every other address alone, in every memory. -/
@[simp] theorem Memory.read_write_ne (m : Memory) (a b v : Word) (h : b ≠ a) : (m.write a v).read b = m.read b := by
  have hne : b.toNat ≠ a.toNat := fun e => h (BitVec.eq_of_toNat_eq e)
  unfold Memory.read Memory.write
  split
  · exact Memory.lookup_erase_ne _ _ _ hne
  · rw [Memory.lookup_insertCell_ne _ _ _ _ hne, Memory.lookup_erase_ne _ _ _ hne]

@[simp] theorem Memory.read_nil (a : Word) : Memory.read [] a = Config.unlistedWord := rfl

theorem Memory.wf_nil : Memory.wf [] := by simp [Memory.wf]

theorem Memory.wf_erase (k : Nat) (m : Memory) (h : m.wf) : Memory.wf (Memory.erase k m) :=
  ⟨h.1.filter _, fun c hc => h.2 c (Memory.mem_erase k m c hc).1⟩

theorem Memory.mem_insertCell (k : Nat) (v : Word) (m : Memory) :
    ∀ c, c ∈ Memory.insertCell k v m ↔ c = (k, v) ∨ c ∈ m := by
  induction m with
  | nil => simp [Memory.insertCell]
  | cons d m ih =>
    intro c
    unfold Memory.insertCell
    split
    · simp
    · simp only [List.mem_cons, ih]
      tauto

theorem Memory.pairwise_insertCell (k : Nat) (v : Word) (m : Memory) (hm : m.Pairwise fun c d => c.1 < d.1)
    (hk : ∀ c ∈ m, c.1 ≠ k) : (Memory.insertCell k v m).Pairwise fun c d => c.1 < d.1 := by
  induction m with
  | nil => simp [Memory.insertCell]
  | cons d m ih =>
    obtain ⟨hd, hm'⟩ := List.pairwise_cons.mp hm
    unfold Memory.insertCell
    split
    · next hlt =>
      refine List.pairwise_cons.mpr ⟨fun c hc => ?_, hm⟩
      rcases List.mem_cons.mp hc with rfl | hc'
      · exact hlt
      · exact lt_trans hlt (hd c hc')
    · next hge =>
      have hdk : d.1 ≠ k := hk d (by simp)
      refine List.pairwise_cons.mpr ⟨fun c hc => ?_, ih hm' fun c hc => hk c (by simp [hc])⟩
      rcases (Memory.mem_insertCell k v m c).mp hc with rfl | hc'
      · simp only; omega
      · exact hd c hc'

/-- Every write keeps the canonical form. -/
theorem Memory.wf_write (m : Memory) (a v : Word) (h : m.wf) : (m.write a v).wf := by
  have he := Memory.wf_erase a.toNat m h
  unfold Memory.write
  split
  · exact he
  · next hv =>
    refine ⟨Memory.pairwise_insertCell _ _ _ he.1 fun c hc => (Memory.mem_erase _ _ c hc).2, fun c hc => ?_⟩
    rcases (Memory.mem_insertCell _ _ _ c).mp hc with rfl | hc'
    · exact ⟨a.isLt, hv⟩
    · exact he.2 c hc'

end Sys2Proof.Machine
end

