-- ==== Sys2Proof/Laws/Operands.lean ====
section
/-!
SUPPORT. Byte lanes (spec 40_pipeline.md R122) and the operand selects.
-/

namespace Sys2Proof.Machine

theorem hiByte_append_loByte (v : Word) : hiByte v ++ loByte v = v := by
  ext i hi
  simp only [hiByte, loByte, BitVec.getElem_append, BitVec.getElem_extractLsb']
  interval_cases i <;> simp

@[simp] theorem loByte_append (h l : Byte) : loByte (h ++ l) = l := by
  ext i hi
  simp only [loByte, BitVec.getElem_extractLsb', BitVec.getLsbD_append]
  interval_cases i <;> simp

@[simp] theorem hiByte_append (h l : Byte) : hiByte (h ++ l) = h := by
  ext i hi
  simp only [hiByte, BitVec.getElem_extractLsb', BitVec.getLsbD_append]
  interval_cases i <;> simp

/-- Both lanes enabled: the new word. -/
@[simp] theorem mergeLanes_both (new old : Word) : mergeLanes true true new old = new := hiByte_append_loByte new

/-- No lane enabled: the old word. -/
@[simp] theorem mergeLanes_none (new old : Word) : mergeLanes false false new old = old := hiByte_append_loByte old

@[simp] theorem loByte_mergeLanes (lo hi : Bool) (new old : Word) :
    loByte (mergeLanes lo hi new old) = if lo then loByte new else loByte old := by
  cases lo <;> simp [mergeLanes]

@[simp] theorem hiByte_mergeLanes (lo hi : Bool) (new old : Word) :
    hiByte (mergeLanes lo hi new old) = if hi then hiByte new else hiByte old := by
  cases hi <;> simp [mergeLanes]

/-- Two words that agree in both bytes are equal. -/
theorem word_ext_bytes (x y : Word) (hlo : loByte x = loByte y) (hhi : hiByte x = hiByte y) : x = y := by
  rw [← hiByte_append_loByte x, ← hiByte_append_loByte y, hlo, hhi]

@[simp] theorem loByte_imm8High (v : BitVec 8) : loByte (imm8High v) = 0 := loByte_append v 0#8

@[simp] theorem hiByte_imm8High (v : BitVec 8) : hiByte (imm8High v) = v := hiByte_append v 0#8

/-- LI's sign extension keeps the immediate in the low byte. -/
@[simp] theorem loByte_sext8 (v : BitVec 8) : loByte (sext8 v) = v := by
  ext i hi
  simp only [loByte, sext8, BitVec.getElem_extractLsb', BitVec.getLsbD_signExtend]
  interval_cases i <;> simp

end Sys2Proof.Machine
end

