-- ==== Sys2Proof/Laws/State.lean ====
section
/-!
SUPPORT. One lemma for each field of the state under each update, so that no proof unfolds a record update.
-/

namespace Sys2Proof.Machine

@[simp] theorem State.setReg_regs (r : RegIdx) (v : Word) (s : State) : (s.setReg r v).regs = writeReg s.regs r v := rfl
@[simp] theorem State.setReg_flags (r : RegIdx) (v : Word) (s : State) : (s.setReg r v).flags = s.flags := rfl
@[simp] theorem State.setReg_pc (r : RegIdx) (v : Word) (s : State) : (s.setReg r v).pc = s.pc := rfl
@[simp] theorem State.setReg_ifid (r : RegIdx) (v : Word) (s : State) : (s.setReg r v).ifid = s.ifid := rfl
@[simp] theorem State.setReg_idex (r : RegIdx) (v : Word) (s : State) : (s.setReg r v).idex = s.idex := rfl
@[simp] theorem State.setReg_exmem (r : RegIdx) (v : Word) (s : State) : (s.setReg r v).exmem = s.exmem := rfl
@[simp] theorem State.setReg_memwb (r : RegIdx) (v : Word) (s : State) : (s.setReg r v).memwb = s.memwb := rfl
@[simp] theorem State.setReg_cyc (r : RegIdx) (v : Word) (s : State) : (s.setReg r v).cyc = s.cyc := rfl
@[simp] theorem State.setReg_imem (r : RegIdx) (v : Word) (s : State) : (s.setReg r v).imem = s.imem := rfl
@[simp] theorem State.setReg_dmem (r : RegIdx) (v : Word) (s : State) : (s.setReg r v).dmem = s.dmem := rfl
@[simp] theorem State.setReg_haltedOut (r : RegIdx) (v : Word) (s : State) : (s.setReg r v).haltedOut = s.haltedOut := rfl
@[simp] theorem State.setReg_calls (r : RegIdx) (v : Word) (s : State) : (s.setReg r v).calls = s.calls := rfl

@[simp] theorem State.setFlags_regs (fl : Flags) (s : State) : (s.setFlags fl).regs = s.regs := rfl
@[simp] theorem State.setFlags_flags (fl : Flags) (s : State) : (s.setFlags fl).flags = fl := rfl
@[simp] theorem State.setFlags_pc (fl : Flags) (s : State) : (s.setFlags fl).pc = s.pc := rfl
@[simp] theorem State.setFlags_ifid (fl : Flags) (s : State) : (s.setFlags fl).ifid = s.ifid := rfl
@[simp] theorem State.setFlags_idex (fl : Flags) (s : State) : (s.setFlags fl).idex = s.idex := rfl
@[simp] theorem State.setFlags_exmem (fl : Flags) (s : State) : (s.setFlags fl).exmem = s.exmem := rfl
@[simp] theorem State.setFlags_memwb (fl : Flags) (s : State) : (s.setFlags fl).memwb = s.memwb := rfl
@[simp] theorem State.setFlags_cyc (fl : Flags) (s : State) : (s.setFlags fl).cyc = s.cyc := rfl
@[simp] theorem State.setFlags_imem (fl : Flags) (s : State) : (s.setFlags fl).imem = s.imem := rfl
@[simp] theorem State.setFlags_dmem (fl : Flags) (s : State) : (s.setFlags fl).dmem = s.dmem := rfl
@[simp] theorem State.setFlags_haltedOut (fl : Flags) (s : State) : (s.setFlags fl).haltedOut = s.haltedOut := rfl
@[simp] theorem State.setFlags_calls (fl : Flags) (s : State) : (s.setFlags fl).calls = s.calls := rfl

@[simp] theorem State.logCall_regs (c : PortCall) (s : State) : (s.logCall c).regs = s.regs := rfl
@[simp] theorem State.logCall_flags (c : PortCall) (s : State) : (s.logCall c).flags = s.flags := rfl
@[simp] theorem State.logCall_pc (c : PortCall) (s : State) : (s.logCall c).pc = s.pc := rfl
@[simp] theorem State.logCall_ifid (c : PortCall) (s : State) : (s.logCall c).ifid = s.ifid := rfl
@[simp] theorem State.logCall_idex (c : PortCall) (s : State) : (s.logCall c).idex = s.idex := rfl
@[simp] theorem State.logCall_exmem (c : PortCall) (s : State) : (s.logCall c).exmem = s.exmem := rfl
@[simp] theorem State.logCall_memwb (c : PortCall) (s : State) : (s.logCall c).memwb = s.memwb := rfl
@[simp] theorem State.logCall_cyc (c : PortCall) (s : State) : (s.logCall c).cyc = s.cyc := rfl
@[simp] theorem State.logCall_imem (c : PortCall) (s : State) : (s.logCall c).imem = s.imem := rfl
@[simp] theorem State.logCall_dmem (c : PortCall) (s : State) : (s.logCall c).dmem = s.dmem := rfl
@[simp] theorem State.logCall_haltedOut (c : PortCall) (s : State) : (s.logCall c).haltedOut = s.haltedOut := rfl
@[simp] theorem State.logCall_calls (c : PortCall) (s : State) : (s.logCall c).calls = c :: s.calls := rfl

@[simp] theorem State.continueAt_regs (target : Word) (s : State) : (s.continueAt target).regs = s.regs := rfl
@[simp] theorem State.continueAt_flags (target : Word) (s : State) : (s.continueAt target).flags = s.flags := rfl
@[simp] theorem State.continueAt_pc (target : Word) (s : State) : (s.continueAt target).pc = target := rfl
@[simp] theorem State.continueAt_ifid (target : Word) (s : State) : (s.continueAt target).ifid = s.ifid := rfl
@[simp] theorem State.continueAt_idex (target : Word) (s : State) : (s.continueAt target).idex = s.idex := rfl
@[simp] theorem State.continueAt_exmem (target : Word) (s : State) : (s.continueAt target).exmem = s.exmem := rfl
@[simp] theorem State.continueAt_memwb (target : Word) (s : State) : (s.continueAt target).memwb = s.memwb := rfl
@[simp] theorem State.continueAt_cyc (target : Word) (s : State) : (s.continueAt target).cyc = s.cyc := rfl
@[simp] theorem State.continueAt_imem (target : Word) (s : State) : (s.continueAt target).imem = s.imem := rfl
@[simp] theorem State.continueAt_dmem (target : Word) (s : State) : (s.continueAt target).dmem = s.dmem := rfl
@[simp] theorem State.continueAt_haltedOut (target : Word) (s : State) : (s.continueAt target).haltedOut = false := rfl
@[simp] theorem State.continueAt_calls (target : Word) (s : State) : (s.continueAt target).calls = s.calls := rfl

@[simp] theorem State.advance_regs (s : State) : (s.advance).regs = s.regs := rfl
@[simp] theorem State.advance_flags (s : State) : (s.advance).flags = s.flags := rfl
@[simp] theorem State.advance_pc (s : State) : (s.advance).pc = s.pc + 1 := rfl
@[simp] theorem State.advance_ifid (s : State) : (s.advance).ifid = s.ifid := rfl
@[simp] theorem State.advance_idex (s : State) : (s.advance).idex = s.idex := rfl
@[simp] theorem State.advance_exmem (s : State) : (s.advance).exmem = s.exmem := rfl
@[simp] theorem State.advance_memwb (s : State) : (s.advance).memwb = s.memwb := rfl
@[simp] theorem State.advance_cyc (s : State) : (s.advance).cyc = s.cyc := rfl
@[simp] theorem State.advance_imem (s : State) : (s.advance).imem = s.imem := rfl
@[simp] theorem State.advance_dmem (s : State) : (s.advance).dmem = s.dmem := rfl
@[simp] theorem State.advance_haltedOut (s : State) : (s.advance).haltedOut = false := rfl
@[simp] theorem State.advance_calls (s : State) : (s.advance).calls = s.calls := rfl

@[simp] theorem State.dataStore_regs (p : Params) (a v : Word) (s : State) : (s.dataStore p a v).regs = s.regs := rfl
@[simp] theorem State.dataStore_flags (p : Params) (a v : Word) (s : State) : (s.dataStore p a v).flags = s.flags := rfl
@[simp] theorem State.dataStore_pc (p : Params) (a v : Word) (s : State) : (s.dataStore p a v).pc = s.pc := rfl
@[simp] theorem State.dataStore_ifid (p : Params) (a v : Word) (s : State) : (s.dataStore p a v).ifid = s.ifid := rfl
@[simp] theorem State.dataStore_idex (p : Params) (a v : Word) (s : State) : (s.dataStore p a v).idex = s.idex := rfl
@[simp] theorem State.dataStore_exmem (p : Params) (a v : Word) (s : State) : (s.dataStore p a v).exmem = s.exmem := rfl
@[simp] theorem State.dataStore_memwb (p : Params) (a v : Word) (s : State) : (s.dataStore p a v).memwb = s.memwb := rfl
@[simp] theorem State.dataStore_cyc (p : Params) (a v : Word) (s : State) : (s.dataStore p a v).cyc = s.cyc := rfl
@[simp] theorem State.dataStore_imem (p : Params) (a v : Word) (s : State) : (s.dataStore p a v).imem = s.imem := rfl
@[simp] theorem State.dataStore_dmem (p : Params) (a v : Word) (s : State) : (s.dataStore p a v).dmem = p.dstore s.dmem a v := rfl
@[simp] theorem State.dataStore_haltedOut (p : Params) (a v : Word) (s : State) : (s.dataStore p a v).haltedOut = s.haltedOut := rfl
@[simp] theorem State.dataStore_calls (p : Params) (a v : Word) (s : State) : (s.dataStore p a v).calls = .store a v :: s.calls := rfl

@[simp] theorem State.setFlags_reg (fl : Flags) (s : State) (r : RegIdx) : (s.setFlags fl).reg r = s.reg r := rfl
@[simp] theorem State.logCall_reg (c : PortCall) (s : State) (r : RegIdx) : (s.logCall c).reg r = s.reg r := rfl
@[simp] theorem State.continueAt_reg (target : Word) (s : State) (r : RegIdx) : (s.continueAt target).reg r = s.reg r := rfl
@[simp] theorem State.advance_reg (s : State) (r : RegIdx) : s.advance.reg r = s.reg r := rfl
@[simp] theorem State.dataStore_reg (p : Params) (a v : Word) (s : State) (r : RegIdx) :
    (s.dataStore p a v).reg r = s.reg r := rfl

end Sys2Proof.Machine
end

