-- ==== Sys2Proof/Laws/Registers.lean ====
section
/-!
SUPPORT. The register file: reading after a write, and the write-back commit (spec 40_pipeline.md R122).
-/

namespace Sys2Proof.Machine

@[simp] theorem readReg_writeReg_same (regs : Vector Word 8) (r : RegIdx) (v : Word) :
    readReg (writeReg regs r v) r = v := by
  simp [readReg, writeReg]

@[simp] theorem readReg_writeReg_ne (regs : Vector Word 8) (r r' : RegIdx) (v : Word) (h : r' ≠ r) :
    readReg (writeReg regs r v) r' = readReg regs r' := by
  have hne : r.toNat ≠ r'.toNat := fun e => h (BitVec.eq_of_toNat_eq e.symm)
  simp [readReg, writeReg, hne]

theorem readReg_writeReg (regs : Vector Word 8) (r r' : RegIdx) (v : Word) :
    readReg (writeReg regs r v) r' = if r' = r then v else readReg regs r' := by
  by_cases h : r' = r
  · simp [h]
  · simp [h]

/-- Writing back the value a register holds changes nothing. -/
@[simp] theorem writeReg_readReg_self (regs : Vector Word 8) (r : RegIdx) :
    writeReg regs r (readReg regs r) = regs := by
  simp [readReg, writeReg]

@[simp] theorem State.setReg_reg_same (s : State) (c : RegIdx) (v : Word) : (s.setReg c v).reg c = v :=
  readReg_writeReg_same _ _ _

@[simp] theorem State.setReg_reg_ne (s : State) (c r : RegIdx) (v : Word) (h : r ≠ c) :
    (s.setReg c v).reg r = s.reg r :=
  readReg_writeReg_ne _ _ _ _ h

/-- Two register files that agree on every index are equal. -/
theorem regs_ext (x y : Vector Word 8) (h : ∀ r : RegIdx, readReg x r = readReg y r) : x = y := by
  apply Vector.ext
  intro i hi
  have hr := h (BitVec.ofNat 3 i)
  have e : (BitVec.ofNat 3 i).toNat = i := by simp [BitVec.toNat_ofNat]; omega
  simpa [readReg, e] using hr

end Sys2Proof.Machine
end

