-- ==== Sys2Proof/Laws/Ops.lean ====
section
/-!
SUPPORT. What each shared operation can do, said once: the provers cite these instead of unfolding the operation.
-/

namespace Sys2Proof.Machine

/-! ### The ports -/

@[simp] theorem State.fetch_word (s : State) : s.fetch.1 = s.imem.read s.pc := rfl
@[simp] theorem State.fetch_state (s : State) : s.fetch.2 = s.logCall (.fetch s.pc) := rfl

@[simp] theorem State.dataLoad_word (p : Params) (a : Word) (s : State) :
    (s.dataLoad p a).1 = p.dload (dataCalls s.calls) s.dmem a := rfl
@[simp] theorem State.dataLoad_state (p : Params) (a : Word) (s : State) :
    (s.dataLoad p a).2 = s.logCall (.load a (p.dload (dataCalls s.calls) s.dmem a)) := rfl

@[simp] theorem dataCalls_fetch (a : Word) (l : List PortCall) : dataCalls (.fetch a :: l) = dataCalls l := rfl
@[simp] theorem dataCalls_load (a v : Word) (l : List PortCall) :
    dataCalls (.load a v :: l) = .load a v :: dataCalls l := rfl
@[simp] theorem dataCalls_store (a v : Word) (l : List PortCall) :
    dataCalls (.store a v :: l) = .store a v :: dataCalls l := rfl

/-- A control word that asks for no access makes none (R124). -/
theorem memAccess_none (p : Params) (cw : CtlWord) (y sop : Word) (s : State) (hl : CtlWord.memLoad cw = false)
    (hs : CtlWord.memStore cw = false) : memAccess p cw y sop s = (y, s) := by
  simp [memAccess, hl, hs]

/-- A load and no store: the environment's word, and the call (R124). -/
theorem memAccess_load (p : Params) (cw : CtlWord) (y sop : Word) (s : State) (hl : CtlWord.memLoad cw = true)
    (hs : CtlWord.memStore cw = false) : memAccess p cw y sop s = s.dataLoad p y := by
  simp [memAccess, hl, hs, State.dataLoad]

/-- A store and no load: the value passes, the call is made and the memory written (R124). -/
theorem memAccess_store (p : Params) (cw : CtlWord) (y sop : Word) (s : State) (hl : CtlWord.memLoad cw = false)
    (hs : CtlWord.memStore cw = true) : memAccess p cw y sop s = (y, s.dataStore p y sop) := by
  simp [memAccess, hl, hs]

/-- The one field the data port can write beside the call record is the data memory. -/
theorem memAccess_frame (p : Params) (cw : CtlWord) (y sop : Word) (s : State) :
    (memAccess p cw y sop s).2 =
      { s with dmem := (memAccess p cw y sop s).2.dmem, calls := (memAccess p cw y sop s).2.calls } := by
  unfold memAccess
  cases CtlWord.memLoad cw <;> cases CtlWord.memStore cw <;> rfl

/-! ### Register writes -/

/-- The commit writes the enabled lanes of its register and no other register (R122). -/
theorem readReg_commitReg (cw : CtlWord) (c r : RegIdx) (v : Word) (regs : Vector Word 8) :
    readReg (commitReg cw c v regs) r =
      if r = c then mergeLanes (CtlWord.writesLo cw) (CtlWord.writesHi cw) v (readReg regs c) else readReg regs r := by
  rw [commitReg, readReg_writeReg]

/-- A commit with no enable changes nothing (R122). -/
theorem commitReg_disabled (cw : CtlWord) (c : RegIdx) (v : Word) (regs : Vector Word 8)
    (hlo : CtlWord.writesLo cw = false) (hhi : CtlWord.writesHi cw = false) : commitReg cw c v regs = regs := by
  simp [commitReg, hlo, hhi]

/-- A commit with both lanes enabled writes the whole register (R122). -/
theorem commitReg_whole (cw : CtlWord) (c : RegIdx) (v : Word) (regs : Vector Word 8)
    (hlo : CtlWord.writesLo cw = true) (hhi : CtlWord.writesHi cw = true) :
    commitReg cw c v regs = writeReg regs c v := by
  simp [commitReg, hlo, hhi]

/-! ### Instruction endings -/

/-- What an ALU instruction with a destination does: register, flags, `pc`, nothing else (41_alu_register.md R180). -/
theorem State.aluWrite_eq (c : RegIdx) (r : AluOut) (s : State) :
    s.aluWrite c r =
      { s with regs := writeReg s.regs c r.f, flags := r.flags, pc := s.pc + 1, haltedOut := false } := rfl

/-- What a compare does: flags, `pc`, nothing else (R181). -/
theorem State.aluCompare_eq (r : AluOut) (s : State) :
    s.aluCompare r = { s with flags := r.flags, pc := s.pc + 1, haltedOut := false } := rfl

/-- What a conditional branch does: `pc`, nothing else (45_control_transfer.md section 3). -/
theorem State.branch_eq (taken : Bool) (imm : BitVec 11) (s : State) :
    s.branch taken imm =
      { s with pc := if taken then relativeTarget s.pc imm else s.pc + 1, haltedOut := false } := by
  cases taken <;> rfl

end Sys2Proof.Machine
end

