-- ==== Sys2Proof/Laws/PerInstr.lean ====
section
/-!
SUPPORT. Laws stated for every instruction and proved for each. `CanonicalWord`: the encoder gives the row's opcode and leaves every
ignored bit 0 (spec 30_encoding.md R82, R84, R94).
-/

namespace Sys2Proof

/-- The opcode of each row of spec/opcode_table.json (30_encoding.md R82). -/
def Laws.opcodeOf : Instr → BitVec 5
  | .nop => 0
  | .hlt => 1
  | .load _ _ _ => 2
  | .store _ _ _ => 3
  | .li _ _ => 4
  | .lui _ _ => 5
  | .cmp _ _ => 6
  | .add _ _ _ => 7
  | .sub _ _ _ => 8
  | .and _ _ _ => 9
  | .or _ _ _ => 10
  | .xor _ _ _ => 11
  | .not _ _ => 12
  | .cmpi _ _ => 13
  | .addi _ _ _ => 14
  | .subi _ _ _ => 15
  | .andi _ _ _ => 16
  | .ori _ _ _ => 17
  | .xori _ _ _ => 18
  | .unused19 => 19
  | .jmp _ => 20
  | .jr _ _ => 21
  | .jalr _ _ _ => 22
  | .unused23 => 23
  | .beq _ => 24
  | .bne _ => 25
  | .blt _ => 26
  | .bgt _ => 27
  | .bltu _ => 28
  | .bgtu _ => 29
  | .adc _ _ _ => 30
  | .sbc _ _ _ => 31

/-- The word of the instruction has the row's opcode, and no ignored bit is set in it. -/
def Laws.CanonicalWord.Statement (i : Instr) : Prop :=
  opcode (encode i) = Laws.opcodeOf i ∧ encode i &&& usedBits (encode i) = encode i

theorem Laws.CanonicalWord.nop : Laws.CanonicalWord.Statement .nop :=
  ⟨opcode_formX 0, by
    have h : usedBits (encode .nop) = 0xF800 := by simp [usedBits, encode]
    rw [h]
    exact formX_ignored 0⟩

theorem Laws.CanonicalWord.hlt : Laws.CanonicalWord.Statement .hlt :=
  ⟨opcode_formX 1, by
    have h : usedBits (encode .hlt) = 0xF800 := by simp [usedBits, encode]
    rw [h]
    exact formX_ignored 1⟩

theorem Laws.CanonicalWord.load (c a : RegIdx) (imm : BitVec 5) : Laws.CanonicalWord.Statement (.load c a imm) :=
  ⟨opcode_formRRI 2 c a imm, by
    have h : usedBits (encode (.load c a imm)) = 0xFFFF := by simp [usedBits, encode]
    rw [h]
    exact word_and_all _⟩

theorem Laws.CanonicalWord.store (b a : RegIdx) (imm : BitVec 5) : Laws.CanonicalWord.Statement (.store b a imm) :=
  ⟨opcode_formIRR 3 b a imm, by
    have h : usedBits (encode (.store b a imm)) = 0xFFFF := by simp [usedBits, encode]
    rw [h]
    exact word_and_all _⟩

theorem Laws.CanonicalWord.li (c : RegIdx) (imm : BitVec 8) : Laws.CanonicalWord.Statement (.li c imm) :=
  ⟨opcode_formRII 4 c imm, by
    have h : usedBits (encode (.li c imm)) = 0xFFFF := by simp [usedBits, encode]
    rw [h]
    exact word_and_all _⟩

theorem Laws.CanonicalWord.lui (c : RegIdx) (imm : BitVec 8) : Laws.CanonicalWord.Statement (.lui c imm) :=
  ⟨opcode_formRII 5 c imm, by
    have h : usedBits (encode (.lui c imm)) = 0xFFFF := by simp [usedBits, encode]
    rw [h]
    exact word_and_all _⟩

theorem Laws.CanonicalWord.cmp (a b : RegIdx) : Laws.CanonicalWord.Statement (.cmp a b) :=
  ⟨opcode_formXRR 6 a b, by
    have h : usedBits (encode (.cmp a b)) = 0xF8FC := by simp [usedBits, encode]
    rw [h]
    exact formXRR_ignored 6 a b⟩

theorem Laws.CanonicalWord.add (c a b : RegIdx) : Laws.CanonicalWord.Statement (.add c a b) :=
  ⟨opcode_formRRR 7 c a b, by
    have h : usedBits (encode (.add c a b)) = 0xFFFC := by simp [usedBits, encode]
    rw [h]
    exact formRRR_ignored 7 c a b⟩

theorem Laws.CanonicalWord.sub (c a b : RegIdx) : Laws.CanonicalWord.Statement (.sub c a b) :=
  ⟨opcode_formRRR 8 c a b, by
    have h : usedBits (encode (.sub c a b)) = 0xFFFC := by simp [usedBits, encode]
    rw [h]
    exact formRRR_ignored 8 c a b⟩

theorem Laws.CanonicalWord.and (c a b : RegIdx) : Laws.CanonicalWord.Statement (.and c a b) :=
  ⟨opcode_formRRR 9 c a b, by
    have h : usedBits (encode (.and c a b)) = 0xFFFC := by simp [usedBits, encode]
    rw [h]
    exact formRRR_ignored 9 c a b⟩

theorem Laws.CanonicalWord.or (c a b : RegIdx) : Laws.CanonicalWord.Statement (.or c a b) :=
  ⟨opcode_formRRR 10 c a b, by
    have h : usedBits (encode (.or c a b)) = 0xFFFC := by simp [usedBits, encode]
    rw [h]
    exact formRRR_ignored 10 c a b⟩

theorem Laws.CanonicalWord.xor (c a b : RegIdx) : Laws.CanonicalWord.Statement (.xor c a b) :=
  ⟨opcode_formRRR 11 c a b, by
    have h : usedBits (encode (.xor c a b)) = 0xFFFC := by simp [usedBits, encode]
    rw [h]
    exact formRRR_ignored 11 c a b⟩

theorem Laws.CanonicalWord.not (c a : RegIdx) : Laws.CanonicalWord.Statement (.not c a) :=
  ⟨opcode_formXRX 12 c a, by
    have h : usedBits (encode (.not c a)) = 0xFFE0 := by simp [usedBits, encode]
    rw [h]
    exact formXRX_ignored 12 c a⟩

theorem Laws.CanonicalWord.cmpi (a : RegIdx) (imm : BitVec 5) : Laws.CanonicalWord.Statement (.cmpi a imm) :=
  ⟨opcode_formXRI 13 a imm, by
    have h : usedBits (encode (.cmpi a imm)) = 0xF8FF := by simp [usedBits, encode]
    rw [h]
    exact formXRI_ignored 13 a imm⟩

theorem Laws.CanonicalWord.addi (c a : RegIdx) (imm : BitVec 5) : Laws.CanonicalWord.Statement (.addi c a imm) :=
  ⟨opcode_formRRI 14 c a imm, by
    have h : usedBits (encode (.addi c a imm)) = 0xFFFF := by simp [usedBits, encode]
    rw [h]
    exact word_and_all _⟩

theorem Laws.CanonicalWord.subi (c a : RegIdx) (imm : BitVec 5) : Laws.CanonicalWord.Statement (.subi c a imm) :=
  ⟨opcode_formRRI 15 c a imm, by
    have h : usedBits (encode (.subi c a imm)) = 0xFFFF := by simp [usedBits, encode]
    rw [h]
    exact word_and_all _⟩

theorem Laws.CanonicalWord.andi (c a : RegIdx) (imm : BitVec 5) : Laws.CanonicalWord.Statement (.andi c a imm) :=
  ⟨opcode_formRRI 16 c a imm, by
    have h : usedBits (encode (.andi c a imm)) = 0xFFFF := by simp [usedBits, encode]
    rw [h]
    exact word_and_all _⟩

theorem Laws.CanonicalWord.ori (c a : RegIdx) (imm : BitVec 5) : Laws.CanonicalWord.Statement (.ori c a imm) :=
  ⟨opcode_formRRI 17 c a imm, by
    have h : usedBits (encode (.ori c a imm)) = 0xFFFF := by simp [usedBits, encode]
    rw [h]
    exact word_and_all _⟩

theorem Laws.CanonicalWord.xori (c a : RegIdx) (imm : BitVec 5) : Laws.CanonicalWord.Statement (.xori c a imm) :=
  ⟨opcode_formRRI 18 c a imm, by
    have h : usedBits (encode (.xori c a imm)) = 0xFFFF := by simp [usedBits, encode]
    rw [h]
    exact word_and_all _⟩

theorem Laws.CanonicalWord.unused19 : Laws.CanonicalWord.Statement .unused19 :=
  ⟨opcode_formX 19, by
    have h : usedBits (encode .unused19) = 0xF800 := by simp [usedBits, encode]
    rw [h]
    exact formX_ignored 19⟩

theorem Laws.CanonicalWord.jmp (imm : BitVec 11) : Laws.CanonicalWord.Statement (.jmp imm) :=
  ⟨opcode_formIII 20 imm, by
    have h : usedBits (encode (.jmp imm)) = 0xFFFF := by simp [usedBits, encode]
    rw [h]
    exact word_and_all _⟩

theorem Laws.CanonicalWord.jr (a : RegIdx) (imm : BitVec 5) : Laws.CanonicalWord.Statement (.jr a imm) :=
  ⟨opcode_formXRI 21 a imm, by
    have h : usedBits (encode (.jr a imm)) = 0xF8FF := by simp [usedBits, encode]
    rw [h]
    exact formXRI_ignored 21 a imm⟩

theorem Laws.CanonicalWord.jalr (c a : RegIdx) (imm : BitVec 5) : Laws.CanonicalWord.Statement (.jalr c a imm) :=
  ⟨opcode_formRRI 22 c a imm, by
    have h : usedBits (encode (.jalr c a imm)) = 0xFFFF := by simp [usedBits, encode]
    rw [h]
    exact word_and_all _⟩

theorem Laws.CanonicalWord.unused23 : Laws.CanonicalWord.Statement .unused23 :=
  ⟨opcode_formX 23, by
    have h : usedBits (encode .unused23) = 0xF800 := by simp [usedBits, encode]
    rw [h]
    exact formX_ignored 23⟩

theorem Laws.CanonicalWord.beq (imm : BitVec 11) : Laws.CanonicalWord.Statement (.beq imm) :=
  ⟨opcode_formIII 24 imm, by
    have h : usedBits (encode (.beq imm)) = 0xFFFF := by simp [usedBits, encode]
    rw [h]
    exact word_and_all _⟩

theorem Laws.CanonicalWord.bne (imm : BitVec 11) : Laws.CanonicalWord.Statement (.bne imm) :=
  ⟨opcode_formIII 25 imm, by
    have h : usedBits (encode (.bne imm)) = 0xFFFF := by simp [usedBits, encode]
    rw [h]
    exact word_and_all _⟩

theorem Laws.CanonicalWord.blt (imm : BitVec 11) : Laws.CanonicalWord.Statement (.blt imm) :=
  ⟨opcode_formIII 26 imm, by
    have h : usedBits (encode (.blt imm)) = 0xFFFF := by simp [usedBits, encode]
    rw [h]
    exact word_and_all _⟩

theorem Laws.CanonicalWord.bgt (imm : BitVec 11) : Laws.CanonicalWord.Statement (.bgt imm) :=
  ⟨opcode_formIII 27 imm, by
    have h : usedBits (encode (.bgt imm)) = 0xFFFF := by simp [usedBits, encode]
    rw [h]
    exact word_and_all _⟩

theorem Laws.CanonicalWord.bltu (imm : BitVec 11) : Laws.CanonicalWord.Statement (.bltu imm) :=
  ⟨opcode_formIII 28 imm, by
    have h : usedBits (encode (.bltu imm)) = 0xFFFF := by simp [usedBits, encode]
    rw [h]
    exact word_and_all _⟩

theorem Laws.CanonicalWord.bgtu (imm : BitVec 11) : Laws.CanonicalWord.Statement (.bgtu imm) :=
  ⟨opcode_formIII 29 imm, by
    have h : usedBits (encode (.bgtu imm)) = 0xFFFF := by simp [usedBits, encode]
    rw [h]
    exact word_and_all _⟩

theorem Laws.CanonicalWord.adc (c a b : RegIdx) : Laws.CanonicalWord.Statement (.adc c a b) :=
  ⟨opcode_formRRR 30 c a b, by
    have h : usedBits (encode (.adc c a b)) = 0xFFFC := by simp [usedBits, encode]
    rw [h]
    exact formRRR_ignored 30 c a b⟩

theorem Laws.CanonicalWord.sbc (c a b : RegIdx) : Laws.CanonicalWord.Statement (.sbc c a b) :=
  ⟨opcode_formRRR 31 c a b, by
    have h : usedBits (encode (.sbc c a b)) = 0xFFFC := by simp [usedBits, encode]
    rw [h]
    exact formRRR_ignored 31 c a b⟩

end Sys2Proof
end

