-- ==== Sys2Proof/Laws/Pipeline.lean ====
section
/-!
SUPPORT. One lemma for each field of the state after a cycle (spec 40_pipeline.md R140), and what the stages can do.
-/

namespace Sys2Proof.Machine

@[simp] theorem cycle_regs (p : Params) (rst : Bool) (s : State) : (cycle p rst s).regs = committedRegs s := rfl
@[simp] theorem cycle_flags (p : Params) (rst : Bool) (s : State) : (cycle p rst s).flags = exFlags s := rfl
@[simp] theorem cycle_pc (p : Params) (rst : Bool) (s : State) : (cycle p rst s).pc = nextPC p rst s := rfl
@[simp] theorem cycle_ifid (p : Params) (rst : Bool) (s : State) : (cycle p rst s).ifid = nextIFID p rst s := rfl
@[simp] theorem cycle_idex (p : Params) (rst : Bool) (s : State) : (cycle p rst s).idex = nextIDEX p rst s := rfl
@[simp] theorem cycle_exmem (p : Params) (rst : Bool) (s : State) : (cycle p rst s).exmem = nextEXMEM s := rfl
@[simp] theorem cycle_memwb (p : Params) (rst : Bool) (s : State) : (cycle p rst s).memwb = nextMEMWB p s := rfl
@[simp] theorem cycle_cyc (p : Params) (rst : Bool) (s : State) : (cycle p rst s).cyc = s.cyc + 1 := rfl
@[simp] theorem cycle_haltedOut (p : Params) (rst : Bool) (s : State) : (cycle p rst s).haltedOut = haltSignal s := rfl

theorem portsAfter_imem (p : Params) (rst : Bool) (s : State) : (portsAfter p rst s).imem = s.imem := by
  unfold portsAfter memStage
  split <;> (rw [memAccess_frame]; try rfl)

/-- The instruction memory never changes (20_memory.md R52, R56). -/
@[simp] theorem cycle_imem (p : Params) (rst : Bool) (s : State) : (cycle p rst s).imem = s.imem := portsAfter_imem p rst s

/-- The data memory after a cycle is what MEM's access left (R124). -/
@[simp] theorem cycle_dmem (p : Params) (rst : Bool) (s : State) : (cycle p rst s).dmem = (memStage p s).2.dmem := by
  unfold cycle portsAfter
  split <;> rfl

/-- The calls after a cycle: MEM's access, then IF's fetch if there is one (20_memory.md R60, R64). -/
@[simp] theorem cycle_calls (p : Params) (rst : Bool) (s : State) :
    (cycle p rst s).calls =
      if fetches p rst s then .fetch s.pc :: (memStage p s).2.calls else (memStage p s).2.calls := by
  unfold cycle portsAfter
  split <;> rfl

/-- The data-port calls after a cycle are those of MEM's access. -/
theorem cycle_dataCalls (p : Params) (rst : Bool) (s : State) :
    dataCalls (cycle p rst s).calls = dataCalls (memStage p s).2.calls := by
  rw [cycle_calls]
  split <;> rfl

/-- In a reset cycle and in a taken-jump cycle nothing is held (R137). -/
@[simp] theorem stall_rst (p : Params) (s : State) : stall p true s = false := by simp [stall]
theorem stall_of_jump (p : Params) (rst : Bool) (s : State) (h : CtlWord.j s.idex.ctl = true) : stall p rst s = false := by
  simp [stall, h]

/-- A bubble in EX is no pending write (R135). -/
theorem pendingEX_bubble (s : State) (h : s.idex.ctl = nopcw) :
    (pendingEX s).lo = false ∧ (pendingEX s).hi = false := by
  simp only [pendingEX, h]
  decide

/-- A pending write of no lane is not seen (R135). -/
theorem PendingWrite.over_none (w : PendingWrite) (r : RegIdx) (old : Word) (hlo : w.lo = false) (hhi : w.hi = false) :
    w.over r old = old := by
  simp [PendingWrite.over, hlo, hhi]

end Sys2Proof.Machine
end

