-- ==== Sys2Proof/Laws/Sequential.lean ====
section
/-!
SUPPORT. The instruction-layer step: what it leaves alone, and how the runs unfold (spec 40_pipeline.md R146).
-/

namespace Sys2Proof.Machine

/-- `step` is `exec` of the decoded word, on the state with the fetch made. -/
theorem step_eq (s : State) : step s = exec (decode (s.imem.read s.pc)) (s.logCall (.fetch s.pc)) := rfl

@[simp] theorem insnSteps_zero (p : Params) (s : State) : insnSteps p 0 s = s := rfl
@[simp] theorem insnSteps_succ (p : Params) (n : Nat) (s : State) :
    insnSteps p (n + 1) s = insnSteps p n (insnStep p s) := rfl

/-- One more step at the end instead of at the start. -/
theorem insnSteps_succ_end (p : Params) (n : Nat) (s : State) : insnSteps p (n + 1) s = insnStep p (insnSteps p n s) := by
  induction n generalizing s with
  | zero => rfl
  | succ n ih => exact ih (insnStep p s)

/-- An instruction step leaves the latches, `CYC` and the instruction memory alone (log entry 1). -/
theorem insnEffect_frame (p : Params) (w : Word) (s : State) :
    (insnEffect p w s).ifid = s.ifid ∧ (insnEffect p w s).idex = s.idex ∧ (insnEffect p w s).exmem = s.exmem ∧
      (insnEffect p w s).memwb = s.memwb ∧ (insnEffect p w s).cyc = s.cyc ∧ (insnEffect p w s).imem = s.imem := by
  unfold insnEffect
  simp only
  rw [memAccess_frame]
  simp

end Sys2Proof.Machine
end

