-- ==== Sys2Proof/Tests/Slice0.lean ====
section
/-!
SUPPORT. The model's own tests: what each well-formedness check refuses, decoding from words written out in the spec, one step of each
instruction on the spec's vectors (95_test_vectors.md sections 2 and 6), and a state that meets the hypotheses of each statement.
-/

namespace Sys2Proof.Tests

open Sys2Proof.Machine

/-! ### What the well-formedness checks refuse -/

/-- W1: both a load and a store. -/
theorem test_w1_refuses_load_with_store : CtlWord.w1 0x01C000 = false := by decide
/-- W2: a store without its operand. -/
theorem test_w2_refuses_store_without_operand : CtlWord.w2 0x008000 = false := by decide
/-- W3: an opcode 0 entry without `FI`, and one that halts. -/
theorem test_w3_refuses_flags_and_halt : CtlWord.w3 0x600000 = false ∧ CtlWord.w3 0x600021 = false := by decide
/-- W4: a left hint where the left input is used, a right hint where the right input or a stored operand is. -/
theorem test_w4_refuses_false_hints :
    CtlWord.w4 0x200400 = false ∧ CtlWord.w4 0x400800 = false ∧ CtlWord.w4 0x418000 = false ∧ CtlWord.w4 0x520000 = false := by decide
/-- An entry is refused at opcode 0 for what is admitted elsewhere. -/
theorem test_entry_refused_at_opcode_zero_only :
    entryWellFormed 0x020 0x600021 = false ∧ entryWellFormed 0x021 0x600021 = true := by decide
/-- A table that halts on every word is ill-formed. -/
theorem test_table_of_halts_refused : tableWellFormed (fun _ => 0x600021) = false := by decide +kernel
theorem test_two_reset_cycles_refused : resetCyclesOk 2 = false ∧ resetCyclesOk 3 = true := by decide
theorem test_imm5_out_of_range_refused :
    assembleImm5 16 = none ∧ assembleImm5 (-17) = none ∧ assembleImm5 15 = some 15 ∧ assembleImm5 (-16) = some 0x10 := by decide
theorem test_imm8_out_of_range_refused :
    assembleImm8 256 = none ∧ assembleImm8 (-129) = none ∧ assembleImm8 255 = some 0xFF ∧ assembleImm8 (-128) = some 0x80 := by decide
theorem test_imm11_out_of_range_refused :
    assembleImm11 1024 = none ∧ assembleImm11 (-1025) = none ∧ assembleImm11 1023 = some 0x3FF ∧
      assembleImm11 (-1024) = some 0x400 := by decide
/-- The farthest targets of a relative jump at 0 are 0x0401 and 0xFC02 (95_test_vectors.md section 2.5). -/
theorem test_displacement_out_of_range_refused :
    assembleDisplacement 0 0x0402 = none ∧ assembleDisplacement 0 0xFC01 = none ∧
      assembleDisplacement 0 0x0401 = some 0x3FF ∧ assembleDisplacement 0 0xFC02 = some 0x400 := by decide

/-! ### Decoding, from the words of 95_test_vectors.md section 2.7 -/

theorem test_decode_nop : decodeTableWord 16 0x0000 = some (.nop) := by decide
theorem test_decode_hlt : decodeTableWord 16 0x0800 = some (.hlt) := by decide
theorem test_decode_load : decodeTableWord 16 0x1102 = some (.load 1 0 2) := by decide
theorem test_decode_load_negative : decodeTableWord 16 0x17D0 = some (.load 7 6 (-16)) := by decide
theorem test_decode_store : decodeTableWord 16 0x196B = some (.store 2 3 7) := by decide
theorem test_decode_store_negative : decodeTableWord 16 0x1F05 = some (.store 1 0 (-3)) := by decide
theorem test_decode_li : decodeTableWord 16 0x2001 = some (.li 0 1) := by decide
theorem test_decode_li_negative : decodeTableWord 16 0x2780 = some (.li 7 (-128)) := by decide
theorem test_decode_lui : decodeTableWord 16 0x2812 = some (.lui 0 0x12) := by decide
theorem test_decode_cmp : decodeTableWord 16 0x3028 = some (.cmp 1 2) := by decide
theorem test_decode_add : decodeTableWord 16 0x3A04 = some (.add 2 0 1) := by decide
theorem test_decode_sub : decodeTableWord 16 0x4328 = some (.sub 3 1 2) := by decide
theorem test_decode_and : decodeTableWord 16 0x4A04 = some (.and 2 0 1) := by decide
theorem test_decode_or : decodeTableWord 16 0x5204 = some (.or 2 0 1) := by decide
theorem test_decode_xor : decodeTableWord 16 0x5A04 = some (.xor 2 0 1) := by decide
theorem test_decode_not : decodeTableWord 16 0x6100 = some (.not 1 0) := by decide
theorem test_decode_cmpi : decodeTableWord 16 0x685F = some (.cmpi 2 (-1)) := by decide
theorem test_decode_addi : decodeTableWord 16 0x7101 = some (.addi 1 0 1) := by decide
theorem test_decode_subi : decodeTableWord 16 0x7801 = some (.subi 0 0 1) := by decide
theorem test_decode_andi : decodeTableWord 16 0x810F = some (.andi 1 0 15) := by decide
theorem test_decode_ori : decodeTableWord 16 0x8910 = some (.ori 1 0 (-16)) := by decide
theorem test_decode_xori : decodeTableWord 16 0x911F = some (.xori 1 0 (-1)) := by decide
theorem test_decode_unused19 : decodeTableWord 16 0x9800 = some (.unused19) := by decide
theorem test_decode_jmp : decodeTableWord 16 0xA7FE = some (.jmp (-2)) := by decide
theorem test_decode_jr : decodeTableWord 16 0xA8E0 = some (.jr 7 0) := by decide
theorem test_decode_jalr : decodeTableWord 16 0xB720 = some (.jalr 7 1 0) := by decide
theorem test_decode_unused23 : decodeTableWord 16 0xBABE = some (.unused23) := by decide
theorem test_decode_beq : decodeTableWord 16 0xC003 = some (.beq 3) := by decide
theorem test_decode_bne : decodeTableWord 16 0xCFFD = some (.bne (-3)) := by decide
theorem test_decode_blt : decodeTableWord 16 0xD000 = some (.blt 0) := by decide
theorem test_decode_bgt : decodeTableWord 16 0xD800 = some (.bgt 0) := by decide
theorem test_decode_bltu : decodeTableWord 16 0xE000 = some (.bltu 0) := by decide
theorem test_decode_bgtu : decodeTableWord 16 0xEBFF = some (.bgtu 1023) := by decide
theorem test_decode_adc : decodeTableWord 16 0xF52C = some (.adc 5 1 3) := by decide
theorem test_decode_sbc : decodeTableWord 16 0xFA04 = some (.sbc 2 0 1) := by decide
/-- Words with ignored bits set decode as their canonical words do. -/
theorem test_decode_ignores_bits :
    decode 0x3A07 = decode 0x3A04 ∧ decode 0x37E8 = decode 0x30E8 ∧ decode 0x611F = decode 0x6100 ∧
      decode 0x6F5F = decode 0x685F ∧ decode 0xAFE0 = decode 0xA8E0 ∧ decode 0x07FF = decode 0x0000 := by decide
/-- A pattern longer than the one word of an instruction is none. -/
theorem test_decode_one_word_only : decodeTableWord 24 0 = none := by decide
/-- Raw fields of 95_test_vectors.md section 2.7. -/
theorem test_fields : fieldC 0x3A07 = 2 ∧ fieldA 0x3A07 = 0 ∧ fieldB 0x3A07 = 1 ∧ fieldSimm5 0x1C03 = 0b10011 := by decide

/-! ### The reference table, spot values of 95_test_vectors.md section 2.8 -/

theorem test_refdt_values :
    refdt 0x000 = 0x600020 ∧ refdt 0x1FF = 0x100D40 ∧ refdt 0x058 = 0x6019B8 ∧ refdt 0x018 = 0x600020 ∧ refdt 0x079 = 0x600020 ∧
      refdt 0x11A = 0x6019B8 ∧ refdt 0x19A = 0x600020 ∧ refdt 0x03E = 0x100DC0 := by decide
/-- The 512 entries sum to the checksum the spec gives. -/
theorem test_refdt_checksum : (List.range 512).foldl (fun n k => n + (refdt (BitVec.ofNat 9 k)).toNat) 0 = 0x87178590 := by
  decide +kernel
/-- `Z = 1`, `C = 1`, opcode 25 (example S2). -/
theorem test_table_address : tableAddress ⟨false, true, true, false⟩ 25 = 0x079 := by decide
theorem test_jalr_signals :
    CtlWord.selStoreOp 0x523DAA = 1 ∧ CtlWord.selRightOp 0x523DAA = 1 ∧ CtlWord.aluOp 0x523DAA = 3 ∧ CtlWord.jabs 0x523DAA = true ∧
      CtlWord.writeBackSrcFlag 0x523DAA = true ∧ CtlWord.wben 0x523DAA = true := by decide

/-! ### One step of each instruction, vectors of 95_test_vectors.md sections 2.1 to 2.6 -/

/-- Power-on with `pc`, the flags `N C Z V` and some registers set. -/
def machineAt (pc : Word) (fl : Flags) (r : List (RegIdx × Word)) : State :=
  { State.reset with pc := pc, flags := fl, regs := r.foldl (fun v x => writeReg v x.1 x.2) State.reset.regs }

/-- No flag set. -/
def clear : Flags := ⟨false, false, false, false⟩
/-- `N C Z V = 1 1 0 1`, the flags of section 2.6. -/
def set1101 : Flags := ⟨true, true, false, true⟩

/-- The word `w`, stepped at `s`, answers a next state that meets the check. -/
def runs (w : Nat) (s : State) (check : State → Bool) : Bool :=
  match step (s.withFetchWord 16 w) with
  | .next t => check t
  | .fault _ => false
  | .refused _ => false

theorem test_add_overflow : runs 0x3A04 (machineAt 0x0010 clear [(0, 0x7FFF), (1, 0x0001)])
    (fun t => t.reg 2 == 0x8000 && t.flags == ⟨true, false, false, true⟩ && t.pc == 0x0011) = true := by decide
theorem test_add_carry_into_a_source : runs 0x3924 (machineAt 0x0010 clear [(1, 0x4000)])
    (fun t => t.reg 1 == 0x8000 && t.flags == ⟨true, false, false, true⟩ && t.pc == 0x0011) = true := by decide
theorem test_adc_carry_in : runs 0xF204 (machineAt 0x0010 set1101 [(0, 0xFFFF), (1, 0xFFFF)])
    (fun t => t.reg 2 == 0xFFFF && t.flags == ⟨true, true, false, false⟩ && t.pc == 0x0011) = true := by decide
theorem test_adc_no_carry_in : runs 0xF204 (machineAt 0x0010 clear [(0, 0x0001), (1, 0x0002)])
    (fun t => t.reg 2 == 0x0003 && t.flags == ⟨false, false, false, false⟩ && t.pc == 0x0011) = true := by decide
theorem test_sub_overflow : runs 0x4328 (machineAt 0x0010 clear [(1, 0x8000), (2, 0x0001)])
    (fun t => t.reg 3 == 0x7FFF && t.flags == ⟨false, true, false, true⟩ && t.pc == 0x0011) = true := by decide
theorem test_sub_borrow : runs 0x4328 (machineAt 0x0010 clear [(1, 0x0000), (2, 0x0001)])
    (fun t => t.reg 3 == 0xFFFF && t.flags == ⟨true, false, false, false⟩ && t.pc == 0x0011) = true := by decide
theorem test_sbc_borrow_in : runs 0xFA04 (machineAt 0x0010 clear [(0, 0x0000), (1, 0xFFFF)])
    (fun t => t.reg 2 == 0x0000 && t.flags == ⟨false, false, true, false⟩ && t.pc == 0x0011) = true := by decide
theorem test_sbc_no_borrow_in : runs 0xFA04 (machineAt 0x0010 set1101 [(0, 0x8000), (1, 0x0001)])
    (fun t => t.reg 2 == 0x7FFF && t.flags == ⟨false, true, false, true⟩ && t.pc == 0x0011) = true := by decide
theorem test_cmp_keeps_registers : runs 0x3028 (machineAt 0x0010 clear [(1, 0x0001), (2, 0x8000)])
    (fun t => t.reg 1 == 0x0001 && t.flags == ⟨true, false, false, true⟩ && t.pc == 0x0011) = true := by decide
theorem test_and : runs 0x4A04 (machineAt 0x0010 set1101 [(0, 0x5555), (1, 0xAAAA)])
    (fun t => t.reg 2 == 0x0000 && t.flags == ⟨false, false, true, false⟩ && t.pc == 0x0011) = true := by decide
theorem test_or : runs 0x5204 (machineAt 0x0010 set1101 [(0, 0x1234), (1, 0x00FF)])
    (fun t => t.reg 2 == 0x12FF && t.flags == ⟨false, false, false, false⟩ && t.pc == 0x0011) = true := by decide
theorem test_xor : runs 0x5A04 (machineAt 0x0010 set1101 [(0, 0x7FFF), (1, 0xFFFF)])
    (fun t => t.reg 2 == 0x8000 && t.flags == ⟨true, false, false, false⟩ && t.pc == 0x0011) = true := by decide
theorem test_not : runs 0x6100 (machineAt 0x0010 set1101 [(0, 0x1234)])
    (fun t => t.reg 1 == 0xEDCB && t.flags == ⟨true, false, false, false⟩ && t.pc == 0x0011) = true := by decide
theorem test_cmpi_negative : runs 0x685F (machineAt 0x0010 clear [(2, 0x7FFF)])
    (fun t => t.reg 2 == 0x7FFF && t.flags == ⟨true, false, false, true⟩ && t.pc == 0x0011) = true := by decide
theorem test_addi_overflow : runs 0x7101 (machineAt 0x0010 clear [(0, 0x7FFF)])
    (fun t => t.reg 1 == 0x8000 && t.flags == ⟨true, false, false, true⟩ && t.pc == 0x0011) = true := by decide
theorem test_addi_negative : runs 0x711F (machineAt 0x0010 clear [(0, 0x8000)])
    (fun t => t.reg 1 == 0x7FFF && t.flags == ⟨false, true, false, true⟩ && t.pc == 0x0011) = true := by decide
theorem test_subi_to_zero : runs 0x7801 (machineAt 0x0010 clear [(0, 0x0001)])
    (fun t => t.reg 0 == 0x0000 && t.flags == ⟨false, true, true, false⟩ && t.pc == 0x0011) = true := by decide
theorem test_subi_negative : runs 0x7910 (machineAt 0x0010 clear [(0, 0x1234)])
    (fun t => t.reg 1 == 0x1244 && t.flags == ⟨false, false, false, false⟩ && t.pc == 0x0011) = true := by decide
theorem test_andi_sign_extends : runs 0x8110 (machineAt 0x0010 set1101 [(0, 0x1234)])
    (fun t => t.reg 1 == 0x1230 && t.flags == ⟨false, false, false, false⟩ && t.pc == 0x0011) = true := by decide
theorem test_ori_sign_extends : runs 0x8910 (machineAt 0x0010 set1101 [(0, 0x1234)])
    (fun t => t.reg 1 == 0xFFF4 && t.flags == ⟨true, false, false, false⟩ && t.pc == 0x0011) = true := by decide
theorem test_xori_sign_extends : runs 0x911F (machineAt 0x0010 set1101 [(0, 0x8000)])
    (fun t => t.reg 1 == 0x7FFF && t.flags == ⟨false, false, false, false⟩ && t.pc == 0x0011) = true := by decide
/-- `LOAD r3, r3, 15`: the base is read before it is overwritten; the call is recorded; flags stay. -/
theorem test_load : runs 0x136F { machineAt 0x0010 set1101 [(3, 0x1000)] with dmem := [(0x100F, 0xBEEF)] }
    (fun t => t.reg 3 == 0xBEEF && t.flags == set1101 && t.calls == [.load 0x100F 0xBEEF, .fetch 0x0010]) = true := by decide
/-- `LOAD r1, r0, -1` wraps to the top of the space, where nothing has been written. -/
theorem test_load_wraps : runs 0x111F (machineAt 0x0010 clear [(1, 0x1111)])
    (fun t => t.reg 1 == 0x0000 && t.calls == [.load 0xFFFF 0x0000, .fetch 0x0010]) = true := by decide
/-- `STORE r2, r3, -16`: `B` is the data register, `A` the base. -/
theorem test_store : runs 0x1C68 (machineAt 0x0010 set1101 [(2, 0xBEEF), (3, 0x0008)])
    (fun t => t.dmem == [(0xFFF8, 0xBEEF)] && t.flags == set1101 && t.calls == [.store 0xFFF8 0xBEEF, .fetch 0x0010]) = true := by
  decide
/-- A stored zero leaves no cell. -/
theorem test_store_zero : runs 0x1806 { machineAt 0x0010 clear [] with dmem := [(2, 7), (5, 6)] }
    (fun t => t.dmem == [(5, 6)] && t.dmem.read 2 == 0x0000) = true := by decide
theorem test_li : runs 0x2780 (machineAt 0x0010 set1101 []) (fun t => t.reg 7 == 0xFF80 && t.flags == set1101) = true := by decide
theorem test_lui : runs 0x2812 (machineAt 0x0010 set1101 [(0, 0xFFF0)])
    (fun t => t.reg 0 == 0x12F0 && t.flags == set1101) = true := by decide
theorem test_jmp_wraps : runs 0xA000 (machineAt 0xFFFF clear []) (fun t => t.pc == 0x0001) = true := by decide
theorem test_jmp_back : runs 0xA400 (machineAt 0x0000 clear []) (fun t => t.pc == 0xFC02) = true := by decide
theorem test_jr : runs 0xA850 (machineAt 0x0000 clear [(2, 0x0100)]) (fun t => t.pc == 0x00F0) = true := by decide
theorem test_jalr : runs 0xB65F (machineAt 0x7FFF set1101 [])
    (fun t => t.pc == 0xFFFF && t.reg 6 == 0x8000 && t.flags == set1101) = true := by decide
/-- `JALR r7, r7, 0`: the target is the old value. -/
theorem test_jalr_same_register : runs 0xB7E0 (machineAt 0x0010 clear [(7, 0x0200)])
    (fun t => t.pc == 0x0200 && t.reg 7 == 0x0011) = true := by decide

/-- A branch at 0x0010 with displacement 4: where it goes on the flags. -/
def branchGoes (w : Nat) (fl : Flags) (pc : Word) : Bool := runs w (machineAt 0x0010 fl []) fun t => t.pc == pc && t.flags == fl

theorem test_beq :
    (branchGoes 0xC004 ⟨false, true, true, false⟩ 0x0016 && branchGoes 0xC004 ⟨false, true, false, false⟩ 0x0011 &&
     branchGoes 0xC004 ⟨true, false, false, false⟩ 0x0011 && branchGoes 0xC004 ⟨false, true, false, true⟩ 0x0011 &&
     branchGoes 0xC004 ⟨true, false, false, true⟩ 0x0011 && branchGoes 0xC004 ⟨true, true, false, false⟩ 0x0011 &&
     branchGoes 0xC004 ⟨false, false, false, false⟩ 0x0011) = true := by decide
theorem test_bne :
    (branchGoes 0xC804 ⟨false, true, true, false⟩ 0x0011 && branchGoes 0xC804 ⟨false, true, false, false⟩ 0x0016 &&
     branchGoes 0xC804 ⟨true, false, false, false⟩ 0x0016 && branchGoes 0xC804 ⟨false, true, false, true⟩ 0x0016 &&
     branchGoes 0xC804 ⟨true, false, false, true⟩ 0x0016 && branchGoes 0xC804 ⟨true, true, false, false⟩ 0x0016 &&
     branchGoes 0xC804 ⟨false, false, false, false⟩ 0x0016) = true := by decide
theorem test_blt :
    (branchGoes 0xD004 ⟨false, true, true, false⟩ 0x0011 && branchGoes 0xD004 ⟨false, true, false, false⟩ 0x0011 &&
     branchGoes 0xD004 ⟨true, false, false, false⟩ 0x0016 && branchGoes 0xD004 ⟨false, true, false, true⟩ 0x0016 &&
     branchGoes 0xD004 ⟨true, false, false, true⟩ 0x0011 && branchGoes 0xD004 ⟨true, true, false, false⟩ 0x0016 &&
     branchGoes 0xD004 ⟨false, false, false, false⟩ 0x0011) = true := by decide
theorem test_bgt :
    (branchGoes 0xD804 ⟨false, true, true, false⟩ 0x0011 && branchGoes 0xD804 ⟨false, true, false, false⟩ 0x0016 &&
     branchGoes 0xD804 ⟨true, false, false, false⟩ 0x0011 && branchGoes 0xD804 ⟨false, true, false, true⟩ 0x0011 &&
     branchGoes 0xD804 ⟨true, false, false, true⟩ 0x0016 && branchGoes 0xD804 ⟨true, true, false, false⟩ 0x0011 &&
     branchGoes 0xD804 ⟨false, false, false, false⟩ 0x0016) = true := by decide
theorem test_bltu :
    (branchGoes 0xE004 ⟨false, true, true, false⟩ 0x0011 && branchGoes 0xE004 ⟨false, true, false, false⟩ 0x0011 &&
     branchGoes 0xE004 ⟨true, false, false, false⟩ 0x0016 && branchGoes 0xE004 ⟨false, true, false, true⟩ 0x0011 &&
     branchGoes 0xE004 ⟨true, false, false, true⟩ 0x0016 && branchGoes 0xE004 ⟨true, true, false, false⟩ 0x0011 &&
     branchGoes 0xE004 ⟨false, false, false, false⟩ 0x0016) = true := by decide
theorem test_bgtu :
    (branchGoes 0xE804 ⟨false, true, true, false⟩ 0x0011 && branchGoes 0xE804 ⟨false, true, false, false⟩ 0x0016 &&
     branchGoes 0xE804 ⟨true, false, false, false⟩ 0x0011 && branchGoes 0xE804 ⟨false, true, false, true⟩ 0x0016 &&
     branchGoes 0xE804 ⟨true, false, false, true⟩ 0x0011 && branchGoes 0xE804 ⟨true, true, false, false⟩ 0x0016 &&
     branchGoes 0xE804 ⟨false, false, false, false⟩ 0x0011) = true := by decide
theorem test_nop : runs 0x07FF (machineAt 0x0010 set1101 [(3, 5)])
    (fun t => t == { machineAt 0x0011 set1101 [(3, 5)] with imem := [(0x0010, 0x07FF)], calls := [.fetch 0x0010] }) = true := by decide
theorem test_unused19 : runs 0x9FFF (machineAt 0xFFFF set1101 []) (fun t => t.pc == 0x0000 && t.flags == set1101) = true := by decide
theorem test_unused23 : runs 0xBABE (machineAt 0x0010 set1101 []) (fun t => t.pc == 0x0011 && t.flags == set1101) = true := by decide
theorem test_hlt : runs 0x0FFF (machineAt 0x0010 set1101 [])
    (fun t => t.haltedOut && t.pc == 0x0011 && t.flags == set1101) = true := by decide

/-! ### The pipeline -/

/-- After k cycles of NOPs, `PC = k` (example S4). -/
theorem test_cycle_nop : (cycle Params.ref false State.reset).pc = 0x0001 := by decide
/-- `STORE r1, r0, 2` in EX: in the next cycle it is in MEM with the address and the value, and makes the call in the one after. -/
theorem test_cycle_store :
    (cycle Params.ref false (cycle Params.ref false
      { State.reset with idex := ⟨0x018DB0, 0x0010, 0x1234, 0x1806, 0x0003⟩ })).dmem = [(0x0012, 0x1234)] := by decide
/-- A reset cycle clears `PC` and IFID and makes no fetch (70_reset_and_hazards.md R301). -/
theorem test_cycle_reset :
    (cycle Params.ref true { State.reset with pc := 0x0007, ifid := ⟨0x3A04, 0x0006⟩ }).ifid = ⟨0x0000, 0x0000⟩ ∧
    (cycle Params.ref true { State.reset with pc := 0x0007 }).calls = [] := by decide

/-- A LOAD of `r1` in EX and the word `ADDI r2, r1, 1` in ID: the one case that stalls (70_reset_and_hazards.md R311). -/
def loadThenUse : State :=
  { State.reset with pc := 0x0002, idex := ⟨0x504DA8, 0, 0, 0x1100, 0x0000⟩, ifid := ⟨0x7221, 0x0001⟩ }

/-- `JMP 2` in EX at 5, a LOAD behind it. -/
def jumpInEX : State :=
  { State.reset with pc := 0x0007, idex := ⟨0x6019B8, 0, 0, 0xA002, 0x0005⟩, ifid := ⟨0x1100, 0x0006⟩ }

theorem test_taken_jump : (cycle Params.ref false jumpInEX).pc = 0x0009 := by decide

/-! ### States that meet the hypotheses of the statements -/

/-- StallLastsOneCycle: the stall happens. -/
theorem test_hyp_stall : stall Params.ref false loadThenUse = true := by decide
/-- ForwardingReadsProgramOrderValue: a register without hazard beside one with. -/
theorem test_hyp_no_hazard : regHazard loadThenUse 2 = false ∧ regHazard loadThenUse 1 = true := by decide
/-- TakenJumpSquashesTwoSlots. -/
theorem test_hyp_taken_jump : CtlWord.j jumpInEX.idex.ctl = true := by decide
/-- StepRunsDecodedInstruction. -/
theorem test_hyp_step : decode ((State.reset.withFetchWord 16 0x3A04).imem.read 0x0000) = .add 2 0 1 := by decide
/-- EveryInstructionKeepsItsFrame: an instruction of each kind answers a next state, here a store. -/
theorem test_hyp_frame : ∃ t, exec (.store 1 0 2) State.reset = .next t := ⟨_, rfl⟩
/-- EveryInstructionKeepsItsFrame: a register and an address that must not change, at the ends of their ranges. -/
theorem test_hyp_frame_clauses :
    destination (.store 1 0 2) ≠ some 7 ∧ storeAddress State.reset (.store 1 0 2) ≠ some 0xFFFF ∧
      writesFlags (.store 1 0 2) = false := by decide
/-- NopOnlyAdvancesPC, UnusedOpcodesActAsNop, HltOnlyEndsTheRun: the ends of each range of words. -/
theorem test_hyp_word_ranges :
    decode 0x07FF = .nop ∧ decode 0x0800 = .hlt ∧ decode 0x0FFF = .hlt ∧ decode 0x9800 = .unused19 ∧ decode 0x9FFF = .unused19 ∧
      decode 0xB800 = .unused23 ∧ decode 0xBFFF = .unused23 := by decide
/-- Entries of the reference table meet W1 to W4, here those at flags `0000`. -/
theorem test_hyp_refdt_entries :
    ((List.range 32).all fun k => entryWellFormed (BitVec.ofNat 9 k) (refdt (BitVec.ofNat 9 k))) = true := by decide
/-- WrittenImmediatesReachTheirValue: both ends of each range. -/
theorem test_hyp_immediates :
    imm5InRange (-16) = true ∧ imm5InRange 15 = true ∧ imm8InRange (-128) = true ∧ imm8InRange 255 = true ∧
      imm11InRange (-1024) = true ∧ imm11InRange 1023 = true := by decide
/-- DisplacementIsInverseOfTarget: a jump back over the start of the space. -/
theorem test_hyp_displacement : assembleDisplacement 0x0001 0xFFFF = some 0x7FC := by decide
/-- IgnoredBitsHaveNoEffect, CycleKeepsFetchAddress, HltReachesWriteBackFourCyclesAfterFetch: the reference parameters. -/
theorem test_hyp_reference_table : Params.ref.dt = refdt := rfl
/-- StoreWordSplitsItsImmediate. -/
theorem test_hyp_store_word : decode 0x1F05 = .store 1 0 (-3) := by decide
/-- LoadAfterStoreReturnsStoredWord: two ways to name one address. -/
theorem test_hyp_same_address :
    effectiveAddress ((machineAt 0 clear [(1, 5), (2, 9)]).reg 1) 4 =
      effectiveAddress ((machineAt 0 clear [(1, 5), (2, 9)]).reg 2) 0 := by decide
/-- CarryChainsToThirtyTwoBits: registers of program P7. -/
theorem test_hyp_carry_registers : (4 : RegIdx) ≠ 1 ∧ (4 : RegIdx) ≠ 3 ∧ (4 : RegIdx) ≠ 5 := by decide
/-- A small well-formed table: opcode 1 halts, every other opcode does nothing. -/
def haltTable : DecodeTable := fun k => if k.extractLsb' 0 5 = 1 then 0x600021 else nopcw
theorem test_halt_table_well_formed : tableWellFormed haltTable = true := by decide +kernel
/-- The default parameters with that table. -/
def haltParams : Params := { Params.ref with dt := haltTable, wellFormed := test_halt_table_well_formed }
/-- The default parameters in an environment where both ports reach the same storage. -/
def aliasParams : Params := { Params.ref with instrAlias := fun _ b a => b == a }

/-- StepKeepsMemoriesCanonical: a step that stores. -/
theorem test_hyp_step_canonical : State.memoriesCanonical (State.reset.withFetchWord 16 0x1806) ∧
    ∃ t, step (State.reset.withFetchWord 16 0x1806) = .next t := ⟨by decide, _, rfl⟩
/-- CycleKeepsMemoriesCanonical: the default environment's store keeps the form. -/
theorem test_hyp_cycle_canonical : (∀ m a v, Memory.wf m → Memory.wf (Params.ref.dstore m a v)) ∧
    State.memoriesCanonical (loaded [(0, 0x0800)] [(2, 7)]) := ⟨Memory.wf_write, by decide⟩
/-- CycleKeepsFetchAddress: a jump in EX and a word in ID. -/
theorem test_hyp_fetch_address : Params.ref.dt = refdt ∧ State.fetchAddressInv jumpInEX := ⟨rfl, by decide⟩
/-- CycleKeepsSingleAccessControl, AtMostOneDataCallPerCycle: a load in EX. -/
theorem test_hyp_single_access : State.accessInv loadThenUse := by decide
/-- CycleDependsOnTheLoadedWordOnly: two environments that differ at every address but the one loaded from. -/
theorem test_hyp_two_environments : ∃ p q : Params, p.dt = q.dt ∧ p.dload [] [] 1 ≠ q.dload [] [] 1 ∧
    (CtlWord.memLoad (cycle p false loadThenUse).exmem.ctl = true) ∧
    (CtlWord.memStore (cycle p false loadThenUse).exmem.ctl = false) ∧
    p.dload (dataCalls (cycle p false loadThenUse).calls) (cycle p false loadThenUse).dmem (cycle p false loadThenUse).exmem.y =
      q.dload (dataCalls (cycle p false loadThenUse).calls) (cycle p false loadThenUse).dmem (cycle p false loadThenUse).exmem.y :=
  ⟨Params.ref, { Params.ref with dload := fun _ _ a => if a = 0 then 0x0000 else 0x1234 }, rfl, by decide, by decide, by decide,
    by decide⟩
/-- OnlyTheCommitWritesARegister and FlagsFollowFlagInhibit: a bubble in WB and in EX. -/
theorem test_hyp_bubble : State.reset.idex.ctl = nopcw ∧ CtlWord.wben State.reset.memwb.ctl = false ∧
    CtlWord.wrl State.reset.memwb.ctl = false ∧ CtlWord.wrh State.reset.memwb.ctl = false := by decide
/-- PipelineRunMatchesInstructionRun: the program of one HLT, with NOPs behind it. -/
theorem test_hyp_run : reachesRunning haltParams 0 (loaded [(0, 0x0800)] []) (loaded [(0, 0x0800)] []) ∧
      (insnStep haltParams (loaded [(0, 0x0800)] [])).haltedOut = true ∧
      quietShadow haltParams (insnStep haltParams (loaded [(0, 0x0800)] [])).flags [(0, 0x0800)] 0 := by
  refine ⟨⟨rfl, ?_⟩, by decide, by unfold quietShadow; decide⟩
  exact fun j hj h0 => absurd (Nat.le_antisymm hj (Nat.zero_le j)) (Nat.pos_iff_ne_zero.mp h0)
/-- NopStreamOnlyAdvancesPC: five NOPs under that table. -/
theorem test_nop_stream : (cycles haltParams false 5 State.reset).pc = 0x0005 ∧
    (cycles haltParams false 5 State.reset).regs = State.reset.regs := by decide
/-- HltReachesWriteBackFourCyclesAfterFetch. -/
theorem test_hyp_hlt_fetched : Params.ref.dt = refdt ∧
    decode ((loaded [(0, 0x0800)] []).imem.read 0) = .hlt ∧ fetches Params.ref false (loaded [(0, 0x0800)] []) = true ∧
      CtlWord.j (loaded [(0, 0x0800)] []).idex.ctl = false ∧
      CtlWord.j (cycle Params.ref false (loaded [(0, 0x0800)] [])).idex.ctl = false := ⟨rfl, by decide⟩
/-- ResetEmptiesThePipeline (also with `RESET_CYCLES` at least 4) and HardResetZeroesRegistersAndMemory: the reset sequence answers. -/
theorem test_hyp_reset : 4 ≤ haltParams.resetCycles ∧ ∃ t, resetSequence haltParams.toSetup jumpInEX = .next t := by
  refine ⟨by decide, { cycles haltParams true haltParams.resetCycles jumpInEX with cyc := 0 }, ?_⟩
  rw [resetSequence, Setup.admitted_params]
  rfl
/-- IllFormedParametersAreRefused: an ill-formed table, reset cycles on both sides of the limit, separate spaces. -/
theorem test_hyp_ill_formed : tableWellFormed { Params.ref.toSetup with dt := fun _ => 0x01C000 }.dt = false ∧
    { Params.ref with resetCycles := 2 }.resetCycles < 3 ∧ 3 ≤ { Params.ref with resetCycles := 3 }.resetCycles ∧
    ∀ l b a, Params.ref.instrAlias l b a = false :=
  ⟨by decide +kernel, by decide, by decide, fun _ _ _ => rfl⟩

/-- `STORE r1, r0, 2` at 0 with the storage of both ports in common, NOPs behind it. -/
def storeAhead : State := { loaded [(0, 0x1806)] [] with regs := writeReg State.reset.regs 1 0x0800 }

/-- SelfModifyingFetchesAreRefused, clause 1: address 2 is stored to before the instruction step fetches it. -/
theorem test_insn_self_modifying : StoreReached aliasParams (insnSteps aliasParams 2 storeAhead).calls (insnSteps aliasParams 2 storeAhead).pc ∧
    insnClock aliasParams (insnSteps aliasParams 2 storeAhead) = .refused .selfModifying :=
  ⟨⟨[.fetch 1], 2, 0x0800, [.fetch 0], by decide, by decide⟩, rfl⟩
/-- SelfModifyingFetchesAreRefused, clause 2: at address 1 the store to 2 does not matter. -/
theorem test_insn_not_self_modifying : ¬StoreReached aliasParams (insnSteps aliasParams 1 storeAhead).calls (insnSteps aliasParams 1 storeAhead).pc := by
  rw [← storedTo_iff]
  decide
/-- SelfModifyingFetchesAreRefused, clause 3: when the store is in MEM the word at 2 is in ID, so the cycle is refused. -/
theorem test_cycle_self_modifying : StoreReachesFollower aliasParams false (cycles aliasParams false 3 storeAhead) ∧
    clock aliasParams false (cycles aliasParams false 3 storeAhead) = .refused .selfModifying :=
  ⟨⟨by decide, by decide, by decide, .inr ⟨by decide, by decide, by decide⟩⟩, rfl⟩
/-- Clause 3, the other two places a store in MEM can hit: the word in EX, and the word being fetched. -/
theorem test_hyp_store_in_mem :
    (∃ s : State, StoreReachesFollower aliasParams true s ∧ s.exmem.y = s.idex.pc) ∧
    ∃ s : State, fetches aliasParams false s = true ∧ StoreReached aliasParams (memStage aliasParams s).2.calls s.pc :=
  ⟨⟨{ State.reset with exmem := ⟨0x018DB0, 7, 0, 0, 6⟩, idex := ⟨nopcw, 0, 0, 0, 7⟩, ifid := ⟨0, 8⟩, pc := 9 },
      ⟨by decide, by decide, by decide, .inl ⟨by decide, by decide⟩⟩, by decide⟩,
    { State.reset with exmem := ⟨0x018DB0, 7, 0, 0, 4⟩, pc := 7 }, by decide, [], 7, 0, [], by decide, by decide⟩
/-- `STORE r1, r0, 2` at 0 and a jump over the stored word at 1. -/
def storeJump : State := { storeAhead with imem := [(0, 0x1806), (1, 0xA002)] }
/-- SelfModifyingFetchesAreRefused, clause 4: the word at 2 was fetched before the store and is squashed, so the cycle is answered. -/
theorem test_squashed_word_goes_on : CtlWord.memStore (cycles aliasParams false 3 storeJump).exmem.ctl = true ∧
    CtlWord.j (cycles aliasParams false 3 storeJump).idex.ctl = true ∧
    (cycles aliasParams false 3 storeJump).exmem.y = (cycles aliasParams false 3 storeJump).ifid.pc ∧
    runClocks aliasParams 6 storeJump = .next (runCycles aliasParams 6 storeJump) := ⟨by decide, by decide, by decide, rfl⟩
theorem test_cycle_not_self_modifying : ¬((fetches aliasParams false (cycles aliasParams false 3 storeJump) = true ∧
    StoreReached aliasParams (memStage aliasParams (cycles aliasParams false 3 storeJump)).2.calls (cycles aliasParams false 3 storeJump).pc) ∨
    StoreReachesFollower aliasParams false (cycles aliasParams false 3 storeJump)) := by
  rw [← storedTo_iff]
  unfold StoreReachesFollower
  decide
/-- A store to address 0 drains in the second reset cycle: the IFID that the first one cleared holds no word. -/
theorem test_cleared_ifid_goes_on :
    CtlWord.memStore (cycle aliasParams true { State.reset with idex := ⟨0x018DB0, 0, 0, 0, 6⟩ }).exmem.ctl = true ∧
    clocks aliasParams true 4 { State.reset with idex := ⟨0x018DB0, 0, 0, 0, 6⟩ } =
      .next (cycles aliasParams true 4 { State.reset with idex := ⟨0x018DB0, 0, 0, 0, 6⟩ }) := ⟨by decide, rfl⟩
/-- Data address 0 mirrored at every instruction address, and a sharing that a store to 0xFFFF switches on. -/
def bankParams : Params :=
  { Params.ref with instrAlias := fun l b a => b == 0 || (b == a && l.any fun c => c == .store 0xFFFF 1) }
theorem test_mirrored_alias : storedTo bankParams 5 [.store 0 0] = true ∧ storedTo bankParams 6 [.store 0 0] = true := by decide
theorem test_switched_alias : storedTo bankParams 5 [.store 5 0] = false ∧
    storedTo bankParams 5 [.store 5 0, .store 0xFFFF 1] = true := by decide
/-- With separate spaces the same program goes on. -/
theorem test_separate_spaces_go_on : runInsnClocks Params.ref 3 storeAhead = .next (runInsns Params.ref 3 storeAhead) := rfl
/-- `STORE r0, r0, 5` and HLT, the storage of both ports in common. -/
def storeElsewhere : State := loaded [(0, 0x1901), (1, 0x0800)] []
/-- AnsweredRunsNeverFetchStoredWords, the instruction layer: answered, with a fetch after a store. -/
theorem test_hyp_answered_program :
    runProgram aliasParams.toSetup 2 storeElsewhere = .next (runInsns aliasParams 2 storeElsewhere) ∧
      (runInsns aliasParams 2 storeElsewhere).calls =
        [] ++ PortCall.fetch 0x0001 :: [.store 0x0005 0x0000, .fetch 0x0000] :=
  ⟨by rw [runProgram, Setup.admitted_params]; rfl, by decide⟩
/-- AnsweredRunsNeverFetchStoredWords, the pipeline: the fetch at 3 comes after the store. -/
theorem test_hyp_answered_pipeline :
    runPipeline aliasParams.toSetup 4 storeElsewhere = .next (runCycles aliasParams 4 storeElsewhere) ∧
      (runCycles aliasParams 4 storeElsewhere).calls =
        [] ++ PortCall.fetch 0x0003 ::
          [.store 0x0005 0x0000, .fetch 0x0002, .fetch 0x0001, .fetch 0x0000] :=
  ⟨by rw [runPipeline, Setup.admitted_params]; rfl, by decide⟩

end Sys2Proof.Tests
end

section
/-!
PROOFS. The state (spec 10_state.md): the power-on values and invariants, the one writer of the register file, and that nothing
observable depends on what a bubble holds beside its control word.
-/

namespace Sys2Proof.Machine

/-! ### States and the data access -/

/-- Two states with the same fields are equal. -/
theorem State.ext {s t : State} (regs : s.regs = t.regs) (flags : s.flags = t.flags) (pc : s.pc = t.pc)
    (ifid : s.ifid = t.ifid) (idex : s.idex = t.idex) (exmem : s.exmem = t.exmem) (memwb : s.memwb = t.memwb)
    (cyc : s.cyc = t.cyc) (imem : s.imem = t.imem) (dmem : s.dmem = t.dmem) (haltedOut : s.haltedOut = t.haltedOut)
    (calls : s.calls = t.calls) : s = t := by
  cases s
  cases t
  simp_all

/-- What an access reads of the state is the data memory and the call record, and what it answers and leaves there depends on nothing
else (40_pipeline.md R124). -/
theorem memAccess_congr (p : Params) (cw : CtlWord) (y sop : Word) {s t : State} (hdmem : s.dmem = t.dmem)
    (hcalls : s.calls = t.calls) :
    (memAccess p cw y sop s).1 = (memAccess p cw y sop t).1 ∧
      (memAccess p cw y sop s).2.dmem = (memAccess p cw y sop t).2.dmem ∧
      (memAccess p cw y sop s).2.calls = (memAccess p cw y sop t).2.calls := by
  unfold memAccess
  cases CtlWord.memLoad cw <;> cases CtlWord.memStore cw <;> simp [hdmem, hcalls]

/-- MEM reads its own latch, the data memory and the call record (40_pipeline.md R124). -/
theorem memStage_congr (p : Params) {s t : State} (hexmem : s.exmem = t.exmem) (hdmem : s.dmem = t.dmem)
    (hcalls : s.calls = t.calls) :
    (memStage p s).1 = (memStage p t).1 ∧ (memStage p s).2.dmem = (memStage p t).2.dmem ∧
      (memStage p s).2.calls = (memStage p t).2.calls := by
  unfold memStage
  rw [hexmem]
  exact memAccess_congr p _ _ _ hdmem hcalls

/-! ### Registers -/

/-- A register after a cycle: the enabled lanes of the committed value in WB's register, and the old value in every other
(40_pipeline.md R122). -/
theorem cycle_reg (p : Params) (rst : Bool) (s : State) (r : RegIdx) :
    (cycle p rst s).reg r =
      if r = s.memwb.selC then
        mergeLanes (CtlWord.writesLo s.memwb.ctl) (CtlWord.writesHi s.memwb.ctl) (wbValue s) (s.reg s.memwb.selC)
      else s.reg r :=
  readReg_commitReg _ _ _ _ _

/-- Where WB enables no lane the register file stays (40_pipeline.md R122). -/
theorem committedRegs_disabled (s : State) (hlo : CtlWord.writesLo s.memwb.ctl = false)
    (hhi : CtlWord.writesHi s.memwb.ctl = false) : committedRegs s = s.regs :=
  commitReg_disabled _ _ _ _ hlo hhi

/-- Settles O43: each byte of WB's register is the committed or the old one by its lane's enable; every other register stays. -/
theorem onlyTheCommitWritesARegister : Obligations.OnlyTheCommitWritesARegister := by
  intro p rst s
  have hself := cycle_reg p rst s s.memwb.selC
  rw [if_pos rfl] at hself
  refine ⟨fun r hr => ?_, ?_, ?_, fun hwben hwrl hwrh => ?_⟩
  · rw [cycle_reg, if_neg hr]
  · rw [hself, hiByte_mergeLanes]
    split
    · exact .inr rfl
    · exact .inl rfl
  · rw [hself, loByte_mergeLanes]
    split
    · exact .inr rfl
    · exact .inl rfl
  · refine committedRegs_disabled s ?_ ?_
    · simp [CtlWord.writesLo, hwben, hwrl]
    · simp [CtlWord.writesHi, hwben, hwrh]

/-! ### A bubble's stage does nothing -/

/-- A bubble in WB commits nothing (10_state.md R35). -/
theorem committedRegs_bubble {s : State} (h : s.memwb.ctl = nopcw) : committedRegs s = s.regs :=
  committedRegs_disabled s (by rw [h]; rfl) (by rw [h]; rfl)

/-- A bubble in WB does not halt (10_state.md R35). -/
theorem haltSignal_bubble {s : State} (h : s.memwb.ctl = nopcw) : haltSignal s = false := by
  rw [haltSignal, h]
  rfl

/-- A bubble in MEM makes no access: its value passes (10_state.md R35). -/
theorem memStage_bubble (p : Params) {s : State} (h : s.exmem.ctl = nopcw) : memStage p s = (s.exmem.y, s) :=
  memAccess_none p _ _ _ s (by rw [h]; rfl) (by rw [h]; rfl)

/-- A bubble in MEM is no pending write (40_pipeline.md R135). -/
theorem pendingMEM_over_bubble (p : Params) {s : State} (h : s.exmem.ctl = nopcw) (r : RegIdx) (old : Word) :
    (pendingMEM p s).over r old = old := by
  refine PendingWrite.over_none _ r old ?_ ?_
  · simp only [pendingMEM, h]
    rfl
  · simp only [pendingMEM, h]
    rfl

/-- A bubble in EX is no pending write (40_pipeline.md R135). -/
theorem pendingEX_over_bubble {s : State} (h : s.idex.ctl = nopcw) (r : RegIdx) (old : Word) :
    (pendingEX s).over r old = old :=
  PendingWrite.over_none _ r old (pendingEX_bubble s h).1 (pendingEX_bubble s h).2

/-- A bubble in EX leaves the flags alone (40_pipeline.md R130). -/
theorem exFlags_bubble {s : State} (h : s.idex.ctl = nopcw) : exFlags s = s.flags := by
  rw [exFlags, h]
  rfl

/-- A bubble in EX is no jump (10_state.md R35). -/
theorem j_bubble {s : State} (h : s.idex.ctl = nopcw) : CtlWord.j s.idex.ctl = false := by
  rw [h]
  rfl

/-- A bubble in EX is waited for by no instruction (40_pipeline.md R136). -/
theorem stall_bubble (p : Params) (rst : Bool) {s : State} (h : s.idex.ctl = nopcw) : stall p rst s = false := by
  obtain ⟨hlo, hhi⟩ := pendingEX_bubble s h
  simp [stall, hazard, regHazard, hlo, hhi]

/-- With a bubble in EX the only thing that keeps IF from fetching is reset (40_pipeline.md R139). -/
theorem fetches_bubble (p : Params) (rst : Bool) {s : State} (h : s.idex.ctl = nopcw) : fetches p rst s = !rst := by
  simp [fetches, stall_bubble p rst h]

/-- With a bubble in EX the next fetch address is the next word, or the reset value (40_pipeline.md R139). -/
theorem nextPC_bubble (p : Params) (rst : Bool) {s : State} (h : s.idex.ctl = nopcw) :
    nextPC p rst s = if rst then 0x0000 else s.pc + 1 := by
  simp [nextPC, stall_bubble p rst h, j_bubble h]

/-- With a bubble in EX the fetched word goes to ID, unless reset clears it (40_pipeline.md R139). -/
theorem nextIFID_bubble (p : Params) (rst : Bool) {s : State} (h : s.idex.ctl = nopcw) :
    nextIFID p rst s = if rst then ⟨0x0000, 0x0000⟩ else ⟨s.imem.read s.pc, s.pc⟩ := by
  simp [nextIFID, stall_bubble p rst h, j_bubble h]

/-- With a bubble in EX, ID looks up with the flags as they are and forwards from MEM only (40_pipeline.md R134, R135, R138). -/
theorem nextIDEX_bubble (p : Params) (rst : Bool) {s : State} (h : s.idex.ctl = nopcw) :
    nextIDEX p rst s =
      { ctl := if rst then nopcw else lookupCtl p s.flags s.ifid.ins
        a := (pendingMEM p s).over (fieldA s.ifid.ins) (readReg (committedRegs s) (fieldA s.ifid.ins))
        b := (pendingMEM p s).over (fieldB s.ifid.ins) (readReg (committedRegs s) (fieldB s.ifid.ins))
        ins := s.ifid.ins
        pc := s.ifid.pc } := by
  simp [nextIDEX, idCtl, idRead, stall_bubble p rst h, j_bubble h, exFlags_bubble h, pendingEX_over_bubble h]

/-! ### What a bubble holds reaches its successor latch only -/

/-- `pMEM` reads MEM's latch, the data memory and the call record (40_pipeline.md R135). -/
theorem pendingMEM_congr (p : Params) {s t : State} (hexmem : s.exmem = t.exmem) (hdmem : s.dmem = t.dmem)
    (hcalls : s.calls = t.calls) : pendingMEM p s = pendingMEM p t := by
  simp only [pendingMEM, hexmem, (memStage_congr p hexmem hdmem hcalls).1]

/-- `MEMWB'` reads MEM's latch, the data memory and the call record (40_pipeline.md R124). -/
theorem nextMEMWB_congr (p : Params) {s t : State} (hexmem : s.exmem = t.exmem) (hdmem : s.dmem = t.dmem)
    (hcalls : s.calls = t.calls) : nextMEMWB p s = nextMEMWB p t := by
  simp only [nextMEMWB, hexmem, (memStage_congr p hexmem hdmem hcalls).1]

/-- Two bubbles in EX: the next states differ in EXMEM at most. -/
theorem cycle_bubble_idex (p : Params) (rst : Bool) (s : State) {i j : IDEX} (hi : i.ctl = nopcw) (hj : j.ctl = nopcw) :
    { cycle p rst { s with idex := j } with exmem := (cycle p rst { s with idex := i }).exmem } =
      cycle p rst { s with idex := i } := by
  have hi' : ({ s with idex := i } : State).idex.ctl = nopcw := hi
  have hj' : ({ s with idex := j } : State).idex.ctl = nopcw := hj
  have hpending : pendingMEM p { s with idex := j } = pendingMEM p { s with idex := i } := pendingMEM_congr p rfl rfl rfl
  obtain ⟨-, hdmem, hcalls⟩ :=
    memStage_congr p (s := { s with idex := j }) (t := { s with idex := i }) rfl rfl rfl
  refine State.ext (regs := rfl) (flags := ?flags) (pc := ?pc) (ifid := ?ifid) (idex := ?idex) (exmem := rfl)
    (memwb := nextMEMWB_congr p rfl rfl rfl) (cyc := rfl) (imem := ?imem) (dmem := ?dmem) (haltedOut := rfl) (calls := ?calls)
  case flags => exact (exFlags_bubble hj').trans (exFlags_bubble hi').symm
  case pc => exact (nextPC_bubble p rst hj').trans (nextPC_bubble p rst hi').symm
  case ifid => exact (nextIFID_bubble p rst hj').trans (nextIFID_bubble p rst hi').symm
  case idex =>
    refine (nextIDEX_bubble p rst hj').trans (Eq.trans ?_ (nextIDEX_bubble p rst hi').symm)
    rw [hpending]
    rfl
  case imem => simp only [cycle_imem]
  case dmem => simpa only [cycle_dmem] using hdmem
  case calls => simp only [cycle_calls, fetches_bubble p rst hi', fetches_bubble p rst hj', hcalls]

/-- Two bubbles in MEM: the next states differ in MEMWB at most. -/
theorem cycle_bubble_exmem (p : Params) (rst : Bool) (s : State) {i j : EXMEM} (hi : i.ctl = nopcw) (hj : j.ctl = nopcw) :
    { cycle p rst { s with exmem := j } with memwb := (cycle p rst { s with exmem := i }).memwb } =
      cycle p rst { s with exmem := i } := by
  have hi' : ({ s with exmem := i } : State).exmem.ctl = nopcw := hi
  have hj' : ({ s with exmem := j } : State).exmem.ctl = nopcw := hj
  have hread (r : RegIdx) : idRead p { s with exmem := j } r = idRead p { s with exmem := i } r := by
    rw [idRead, idRead, pendingMEM_over_bubble p hj', pendingMEM_over_bubble p hi']
    rfl
  refine State.ext (regs := rfl) (flags := rfl) (pc := rfl) (ifid := rfl) (idex := ?idex) (exmem := rfl) (memwb := rfl)
    (cyc := rfl) (imem := ?imem) (dmem := ?dmem) (haltedOut := rfl) (calls := ?calls)
  case idex =>
    simp only [cycle_idex, nextIDEX, hread]
    rfl
  case imem => simp only [cycle_imem]
  case dmem => simp only [cycle_dmem, memStage_bubble p hi', memStage_bubble p hj']
  case calls =>
    simp only [cycle_calls, memStage_bubble p hi', memStage_bubble p hj']
    rfl

/-- Two bubbles in WB: the next states are the same. -/
theorem cycle_bubble_memwb (p : Params) (rst : Bool) (s : State) {i j : MEMWB} (hi : i.ctl = nopcw) (hj : j.ctl = nopcw) :
    cycle p rst { s with memwb := j } = cycle p rst { s with memwb := i } := by
  have hi' : ({ s with memwb := i } : State).memwb.ctl = nopcw := hi
  have hj' : ({ s with memwb := j } : State).memwb.ctl = nopcw := hj
  have hregs : committedRegs { s with memwb := j } = committedRegs { s with memwb := i } :=
    (committedRegs_bubble hj').trans (committedRegs_bubble hi').symm
  have hpending : pendingMEM p { s with memwb := j } = pendingMEM p { s with memwb := i } := pendingMEM_congr p rfl rfl rfl
  have hread (r : RegIdx) : idRead p { s with memwb := j } r = idRead p { s with memwb := i } r := by
    rw [idRead, idRead, hregs, hpending]
    rfl
  obtain ⟨-, hdmem, hcalls⟩ :=
    memStage_congr p (s := { s with memwb := j }) (t := { s with memwb := i }) rfl rfl rfl
  refine State.ext (regs := hregs) (flags := rfl) (pc := rfl) (ifid := rfl) (idex := ?idex) (exmem := rfl)
    (memwb := nextMEMWB_congr p rfl rfl rfl) (cyc := rfl) (imem := ?imem) (dmem := ?dmem) (haltedOut := ?halted) (calls := ?calls)
  case idex =>
    simp only [cycle_idex, nextIDEX, hread]
    rfl
  case imem => simp only [cycle_imem]
  case dmem => simpa only [cycle_dmem] using hdmem
  case halted => exact (haltSignal_bubble hj').trans (haltSignal_bubble hi').symm
  case calls =>
    simp only [cycle_calls, hcalls]
    rfl

/-- Settles O50, latch by latch: a bubble's fields go on into the next bubble and nowhere else. -/
theorem bubbleContentsAreUnobservable : Obligations.BubbleContentsAreUnobservable := by
  intro p rst s
  refine ⟨?_, ?_, fun v sop pc c => cycle_bubble_memwb p rst s rfl rfl⟩
  · rintro a b ins pc x rfl y rfl
    exact ⟨rfl, rfl, cycle_bubble_idex p rst s rfl rfl⟩
  · rintro v sop pc c x rfl y rfl
    exact ⟨rfl, rfl, cycle_bubble_exmem p rst s rfl rfl⟩

/-! ### Power-on -/

/-- Every register is zero at power-on (10_state.md R39). -/
@[simp] theorem State.reset_reg (r : RegIdx) : State.reset.reg r = 0x0000 := by
  simp [State.reg, readReg, State.reset]

/-- Settles O35: the registers by `State.reset_reg`, the memories as empty lists of cells, every other field as written. -/
theorem powerOnValues : Obligations.PowerOnValues :=
  ⟨State.reset_reg, rfl, rfl, rfl, rfl, rfl, rfl, rfl, Memory.read_nil, Memory.read_nil, rfl, rfl⟩

/-- `NOPCW` asks for no data access (10_state.md R35, 30_encoding.md R90). -/
theorem accessOk_nopcw : CtlWord.accessOk nopcw := ⟨rfl, rfl⟩

/-- Both memories are empty at power-on, so they are in canonical form (log entry 2). -/
theorem State.reset_memoriesCanonical : State.memoriesCanonical State.reset := ⟨Memory.wf_nil, Memory.wf_nil⟩

/-- Settles O36: empty memories, the NOP word in ID, and a bubble in each later latch. -/
theorem powerOnMeetsInvariants : Obligations.PowerOnMeetsInvariants := by
  refine ⟨State.reset_memoriesCanonical, ⟨fun hid => ?_, fun hex => ?_⟩, accessOk_nopcw, accessOk_nopcw, accessOk_nopcw⟩
  · exact absurd rfl hid
  · exact absurd rfl hex

end Sys2Proof.Machine
end

section
/-!
PROOFS. The memories (spec 20_memory.md): the canonical form of both, the data-port calls of a cycle, what a cycle takes from its
environment, and the refusal of programs that fetch what they store.
-/

namespace Sys2Proof.Machine

/-! ### What one access does -/

/-- The data memory after an access: the environment's store, if one is asked for (40_pipeline.md R124). -/
theorem memAccess_dmem (p : Params) (cw : CtlWord) (y sop : Word) (s : State) :
    (memAccess p cw y sop s).2.dmem = if CtlWord.memStore cw then p.dstore s.dmem y sop else s.dmem := by
  unfold memAccess
  cases CtlWord.memLoad cw <;> cases CtlWord.memStore cw <;> rfl

/-- The calls of an access, youngest first: a store after a load, each if asked for (40_pipeline.md R124). -/
theorem memAccess_calls (p : Params) (cw : CtlWord) (y sop : Word) (s : State) :
    (memAccess p cw y sop s).2.calls =
      ((if CtlWord.memStore cw then [.store y sop] else []) ++
        if CtlWord.memLoad cw then [.load y (p.dload (dataCalls s.calls) s.dmem y)] else []) ++ s.calls := by
  unfold memAccess
  cases CtlWord.memLoad cw <;> cases CtlWord.memStore cw <;> rfl

/-- MEM writes the data memory by the environment's store or not at all (40_pipeline.md R124). -/
theorem memStage_dmem (p : Params) (s : State) :
    (memStage p s).2.dmem =
      if CtlWord.memStore s.exmem.ctl then p.dstore s.dmem s.exmem.y s.exmem.sop else s.dmem :=
  memAccess_dmem p _ _ _ s

/-! ### The canonical form -/

/-- A conditional branch leaves both memories alone, taken or not (45_control_transfer.md R250). -/
theorem State.branch_memories (taken : Bool) (imm : BitVec 11) (s : State) :
    (s.branch taken imm).imem = s.imem ∧ (s.branch taken imm).dmem = s.dmem := by
  rw [State.branch_eq]
  exact ⟨rfl, rfl⟩

/-- An instruction that names no store address leaves both memories alone (20_memory.md R56). -/
theorem exec_memories_of_no_store {i : Instr} {s t : State} (hi : storeAddress s i = none) (h : exec i s = .next t) :
    t.imem = s.imem ∧ t.dmem = s.dmem := by
  cases i
  case store => cases hi
  all_goals cases h
  case beq | bne | blt | bgt | bltu | bgtu => exact State.branch_memories _ _ _
  all_goals exact ⟨rfl, rfl⟩

/-- An instruction that names a store address writes one word there and leaves the instruction memory alone (43_load_store.md R221). -/
theorem exec_memories_of_store {i : Instr} {s t : State} {addr : Word} (hi : storeAddress s i = some addr)
    (h : exec i s = .next t) : t.imem = s.imem ∧ ∃ v, t.dmem = s.dmem.write addr v := by
  cases i
  case store b a imm =>
    cases hi
    cases h
    exact ⟨rfl, s.reg b, rfl⟩
  all_goals cases hi

/-- Every instruction keeps the canonical form: it writes at most one word, and `Memory.write` keeps it (log entry 2). -/
theorem exec_keeps_memoriesCanonical {i : Instr} {s t : State} (hs : State.memoriesCanonical s) (h : exec i s = .next t) :
    State.memoriesCanonical t := by
  obtain ⟨himem, hdmem⟩ := hs
  unfold State.memoriesCanonical
  cases hi : storeAddress s i with
  | none =>
    obtain ⟨ei, ed⟩ := exec_memories_of_no_store hi h
    rw [ei, ed]
    exact ⟨himem, hdmem⟩
  | some addr =>
    obtain ⟨ei, v, ed⟩ := exec_memories_of_store hi h
    rw [ei, ed]
    exact ⟨himem, Memory.wf_write _ addr v hdmem⟩

/-- Settles O37: the fetch touches no memory, and the instruction writes at most one word. -/
theorem stepKeepsMemoriesCanonical : Obligations.StepKeepsMemoriesCanonical := by
  intro s t hs h
  rw [step_eq] at h
  exact exec_keeps_memoriesCanonical (s := s.logCall (.fetch s.pc)) hs h

/-- Settles O38: the one write of a cycle is the environment's store in MEM. -/
theorem cycleKeepsMemoriesCanonical : Obligations.CycleKeepsMemoriesCanonical := by
  rintro p rst s hstore ⟨himem, hdmem⟩
  refine ⟨by rwa [cycle_imem], ?_⟩
  rw [cycle_dmem, memStage_dmem]
  split
  · exact hstore _ _ _ hdmem
  · exact hdmem

/-! ### The data-port calls of a cycle -/

/-- Under W1 an access makes at most one data-port call (30_encoding.md R90, 20_memory.md R56). -/
theorem memAccess_dataCalls_of_w1 (p : Params) {cw : CtlWord} (y sop : Word) (s : State) (h : CtlWord.w1 cw = true) :
    ∃ l, dataCalls (memAccess p cw y sop s).2.calls = l ++ dataCalls s.calls ∧ l.length ≤ 1 := by
  cases hl : CtlWord.memLoad cw <;> cases hs : CtlWord.memStore cw
  case false.false =>
    rw [memAccess_none p cw y sop s hl hs]
    exact ⟨[], rfl, Nat.zero_le 1⟩
  case false.true =>
    rw [memAccess_store p cw y sop s hl hs]
    exact ⟨[.store y sop], rfl, le_rfl⟩
  case true.false =>
    rw [memAccess_load p cw y sop s hl hs]
    exact ⟨[.load y (p.dload (dataCalls s.calls) s.dmem y)], rfl, le_rfl⟩
  case true.true => simp [CtlWord.w1, hl, hs] at h

/-- Settles O41: only MEM calls the data port, and W1 holds of its control word. -/
theorem atMostOneDataCallPerCycle : Obligations.AtMostOneDataCallPerCycle := by
  rintro p rst s ⟨-, ⟨hw1, -⟩, -⟩
  rw [cycle_dataCalls]
  exact memAccess_dataCalls_of_w1 p _ _ s hw1

/-! ### What a cycle takes from its environment -/

/-- Two environments that answer this access alike give the same word and the same state (20_memory.md R63). -/
theorem memAccess_env_congr {p q : Params} {cw : CtlWord} {y sop : Word} {s : State}
    (hload : CtlWord.memLoad cw = true → p.dload (dataCalls s.calls) s.dmem y = q.dload (dataCalls s.calls) s.dmem y)
    (hstore : CtlWord.memStore cw = true → p.dstore s.dmem y sop = q.dstore s.dmem y sop) :
    memAccess p cw y sop s = memAccess q cw y sop s := by
  have hread : (if CtlWord.memLoad cw then s.dataLoad p y else (y, s)) =
      if CtlWord.memLoad cw then s.dataLoad q y else (y, s) := by
    split
    · next hl => simp only [State.dataLoad, hload hl]
    · rfl
  have hdmem : (if CtlWord.memLoad cw then s.dataLoad q y else (y, s)).2.dmem = s.dmem := by
    split <;> rfl
  unfold memAccess
  rw [hread]
  refine Prod.ext rfl ?_
  dsimp only
  split
  · next hs => simp only [State.dataStore, hdmem, hstore hs]
  · rfl

/-- A cycle takes from its parameters the table and what MEM's access answers, nothing else (20_memory.md R63). -/
theorem cycle_env_congr {p q : Params} (rst : Bool) {s : State} (hdt : p.dt = q.dt) (hmem : memStage p s = memStage q s) :
    cycle p rst s = cycle q rst s := by
  have hctl : idCtl p s = idCtl q s := by
    simp only [idCtl, lookupCtl, hdt]
  have hread (r : RegIdx) : idRead p s r = idRead q s r := by
    simp only [idRead, pendingMEM, hmem]
  have hstall : stall p rst s = stall q rst s := by
    simp only [stall, hazard, hctl]
  have hports : portsAfter p rst s = portsAfter q rst s := by
    have hfetches : fetches p rst s = fetches q rst s := by
      simp only [fetches, hstall]
    rw [portsAfter, portsAfter, hfetches, hmem]
  have hpc : nextPC p rst s = nextPC q rst s := by
    simp only [nextPC, hstall]
  have hifid : nextIFID p rst s = nextIFID q rst s := by
    simp only [nextIFID, hstall]
  have hidex : nextIDEX p rst s = nextIDEX q rst s := by
    simp only [nextIDEX, hctl, hread, hstall]
  have hmemwb : nextMEMWB p s = nextMEMWB q s := by
    simp only [nextMEMWB, hmem]
  rw [cycle, hports, hpc, hifid, hidex, hmemwb, cycle]

/-- Settles O46: environments that agree on this cycle's access agree on the cycle. -/
theorem cycleDependsOnTheLoadedWordOnly : Obligations.CycleDependsOnTheLoadedWordOnly :=
  fun _ _ rst _ hdt hload hstore => cycle_env_congr rst hdt (memAccess_env_congr hload hstore)

/-! ### Programs that fetch what they store -/

/-- What `memStoresTo` finds: a store in MEM that lands on the word. -/
theorem memStoresTo_iff (p : Params) (s : State) (a : Word) :
    memStoresTo p s a = true ↔
      CtlWord.memStore s.exmem.ctl = true ∧ p.instrAlias (dataCalls s.calls) s.exmem.y a = true := by
  simp [memStoresTo]

/-- What `fetchedInID` finds: no jump in MEM, and `PC` one past the word in ID (log entry 32). -/
theorem fetchedInID_iff (s : State) :
    fetchedInID s = true ↔ CtlWord.j s.exmem.ctl = false ∧ s.pc = s.ifid.pc + 1 := by
  simp [fetchedInID]

/-- What `fetchedInEX` finds: the same of ID, and ID's word one past EX's (log entry 32). -/
theorem fetchedInEX_iff (s : State) :
    fetchedInEX s = true ↔ fetchedInID s = true ∧ s.ifid.pc = s.idex.pc + 1 := by
  simp [fetchedInEX]

/-- What `storesToFollower` finds: a store that lands on the word in EX or on an unsquashed one in ID (20_memory.md R62). -/
theorem storesToFollower_iff (p : Params) (rst : Bool) (s : State) :
    storesToFollower p rst s = true ↔ StoreReachesFollower p rst s := by
  simp only [storesToFollower, StoreReachesFollower, Bool.or_eq_true, Bool.and_eq_true, Bool.not_eq_true',
    fetchedInEX_iff, fetchedInID_iff, memStoresTo_iff]
  tauto

/-- When a cycle makes the program one that 20_memory.md R62 gives no meaning. -/
theorem cycleFetchesStored_iff (p : Params) (rst : Bool) (s : State) :
    cycleFetchesStored p rst s = true ↔
      (fetches p rst s = true ∧ StoreReached p (memStage p s).2.calls s.pc) ∨ StoreReachesFollower p rst s := by
  rw [cycleFetchesStored, Bool.or_eq_true, Bool.and_eq_true, storedTo_iff, storesToFollower_iff]

/-- When an instruction fetches a word stored to before (20_memory.md R62). -/
theorem insnFetchesStored_iff (p : Params) (s : State) : insnFetchesStored p s = true ↔ StoreReached p s.calls s.pc :=
  storedTo_iff p s.pc s.calls

/-- Settles O57: each driver step refuses by its check and is otherwise the plain one; the checks say what the statement does. -/
theorem selfModifyingFetchesAreRefused : Obligations.SelfModifyingFetchesAreRefused := by
  intro p rst s
  rw [← insnFetchesStored_iff, ← cycleFetchesStored_iff, insnDriverStep, driverStep, Setup.admitted_params,
    Setup.admitted_params]
  exact ⟨fun h => if_pos h, fun h => if_neg h, fun h => if_pos h, fun h => if_neg h⟩

/-! ### Answered runs -/

/-- No fetch of the record is of a word that an older store of the record reached (20_memory.md R62). -/
def NoFetchOfStored (p : Params) (calls : List PortCall) : Prop :=
  ∀ newer a older, calls = newer ++ PortCall.fetch a :: older → ¬StoreReached p older a

/-- A record without calls has no such fetch. -/
theorem noFetchOfStored_nil (p : Params) : NoFetchOfStored p [] := by
  intro newer a older h
  simp at h

/-- A further fetch has to be of a word no store has reached. -/
theorem NoFetchOfStored.fetch {p : Params} {calls : List PortCall} {a : Word} (h : NoFetchOfStored p calls)
    (ha : ¬StoreReached p calls a) : NoFetchOfStored p (.fetch a :: calls) := by
  intro newer b older e
  cases newer with
  | nil =>
    cases e
    exact ha
  | cons c newer =>
    cases e
    exact h newer b older rfl

/-- A further data-port call is no fetch. -/
theorem NoFetchOfStored.dataCall {p : Params} {calls : List PortCall} {c : PortCall} (h : NoFetchOfStored p calls)
    (hc : c.isData = true) : NoFetchOfStored p (c :: calls) := by
  intro newer b older e
  cases newer with
  | nil =>
    cases e
    cases hc
  | cons d newer =>
    cases e
    exact h newer b older rfl

/-- A data access adds data-port calls only. -/
theorem NoFetchOfStored.memAccess {p : Params} {s : State} (h : NoFetchOfStored p s.calls) (cw : CtlWord) (y sop : Word) :
    NoFetchOfStored p (memAccess p cw y sop s).2.calls := by
  rw [memAccess_calls, List.append_assoc]
  have hload : NoFetchOfStored p
      ((if CtlWord.memLoad cw then [.load y (p.dload (dataCalls s.calls) s.dmem y)] else []) ++ s.calls) := by
    split
    · exact h.dataCall rfl
    · exact h
  split
  · exact hload.dataCall rfl
  · exact hload

/-- An answered cycle fetches no word stored to before, this cycle's store included. -/
theorem clock_keeps_noFetchOfStored {p : Params} {rst : Bool} {s t : State} (ht : clock p rst s = .next t)
    (h : NoFetchOfStored p s.calls) : NoFetchOfStored p t.calls := by
  obtain ⟨hf, rfl⟩ := clock_eq_next ht
  have hmem : NoFetchOfStored p (memStage p s).2.calls := h.memAccess _ _ _
  rw [cycle_calls]
  split
  · next hfetch =>
    refine hmem.fetch fun hreached => ?_
    rw [(cycleFetchesStored_iff p rst s).mpr (.inl ⟨hfetch, hreached⟩)] at hf
    cases hf
  · exact hmem

/-- An answered instruction fetches no word stored to before. -/
theorem insnClock_keeps_noFetchOfStored {p : Params} {s t : State} (ht : insnClock p s = .next t)
    (h : NoFetchOfStored p s.calls) : NoFetchOfStored p t.calls := by
  obtain ⟨hf, rfl⟩ := insnClock_eq_next ht
  have hfetch : NoFetchOfStored p (s.logCall (.fetch s.pc)).calls := by
    refine h.fetch fun hreached => ?_
    rw [(insnFetchesStored_iff p s).mpr hreached] at hf
    cases hf
  exact hfetch.memAccess _ _ _

/-- What every answered cycle keeps, an answered run keeps. -/
theorem runClocks_keeps {p : Params} {P : State → Prop} (hclock : ∀ {s t}, clock p false s = .next t → P s → P t)
    {n : Nat} {s t : State} (h : runClocks p n s = .next t) (hs : P s) : P t := by
  induction n generalizing s with
  | zero =>
    cases h
    exact hs
  | succ n ih =>
    obtain ⟨u, hu, hrest⟩ := andThen_eq_next h
    split at hrest
    · cases hrest
      exact hclock hu hs
    · exact ih hrest (hclock hu hs)

/-- What every answered instruction keeps, an answered run keeps. -/
theorem runInsnClocks_keeps {p : Params} {P : State → Prop} (hinsn : ∀ {s t}, insnClock p s = .next t → P s → P t)
    {n : Nat} {s t : State} (h : runInsnClocks p n s = .next t) (hs : P s) : P t := by
  induction n generalizing s with
  | zero =>
    cases h
    exact hs
  | succ n ih =>
    obtain ⟨u, hu, hrest⟩ := andThen_eq_next h
    split at hrest
    · cases hrest
      exact hinsn hu hs
    · exact ih hrest (hinsn hu hs)

/-- An answered run of cycles is the plain run (40_pipeline.md R141). -/
theorem runClocks_eq_next {p : Params} {n : Nat} {s t : State} (h : runClocks p n s = .next t) : t = runCycles p n s := by
  induction n generalizing s with
  | zero =>
    cases h
    rfl
  | succ n ih =>
    obtain ⟨u, hu, hrest⟩ := andThen_eq_next h
    rw [(clock_eq_next hu).2] at hrest
    rw [runCycles]
    split at hrest
    · next hhalt =>
      cases hrest
      rw [if_pos hhalt]
    · next hhalt =>
      rw [if_neg hhalt]
      exact ih hrest

/-- An answered run of instructions is the plain run (40_pipeline.md R144). -/
theorem runInsnClocks_eq_next {p : Params} {n : Nat} {s t : State} (h : runInsnClocks p n s = .next t) :
    t = runInsns p n s := by
  induction n generalizing s with
  | zero =>
    cases h
    rfl
  | succ n ih =>
    obtain ⟨u, hu, hrest⟩ := andThen_eq_next h
    rw [(insnClock_eq_next hu).2] at hrest
    rw [runInsns]
    split at hrest
    · next hhalt =>
      cases hrest
      rw [if_pos hhalt]
    · next hhalt =>
      rw [if_neg hhalt]
      exact ih hrest

/-- Settles O58: power-on has made no call, and no answered cycle or instruction adds a fetch of a stored word. -/
theorem answeredRunsNeverFetchStoredWords : Obligations.AnsweredRunsNeverFetchStoredWords := by
  intro p imem dmem n t
  rw [runProgram, runPipeline, Setup.admitted_params, Setup.admitted_params]
  have hstart : NoFetchOfStored p (loaded imem dmem).calls := noFetchOfStored_nil p
  refine ⟨?_, runInsnClocks_eq_next, runClocks_eq_next⟩
  rintro (h | h)
  · exact runInsnClocks_keeps (P := fun s => NoFetchOfStored p s.calls) insnClock_keeps_noFetchOfStored h hstart
  · exact runClocks_keeps (P := fun s => NoFetchOfStored p s.calls) clock_keeps_noFetchOfStored h hstart

end Sys2Proof.Machine
end

section
/-!
PROOFS. Instruction words (spec 30_encoding.md R70 to R84, R94, R96): the decoder and the encoder are inverse up to ignored bits, the fields
of a STORE word, and the assembler's immediates and displacements.
-/

namespace Sys2Proof

/-! ### The decoder and the encoder -/

/-- Settles O1, format by format: the row's opcode selects its arm, and each field of the format reads back what was put there. -/
theorem decodeEncodeRoundTrip : Obligations.DecodeEncodeRoundTrip := by
  intro i
  cases i
  case nop | hlt | unused19 | unused23 => rfl
  case add | sub | and | or | xor | adc | sbc =>
    simp [decode, encode, fieldC_formRRR, fieldA_formRRR, fieldB_formRRR]
  case load | addi | subi | andi | ori | xori | jalr =>
    simp [decode, encode, fieldC_formRRI, fieldA_formRRI, fieldImm5_formRRI]
  case store => simp [decode, encode, fieldA_formIRR, fieldB_formIRR, fieldSimm5_formIRR]
  case li | lui => simp [decode, encode, fieldC_formRII, fieldImm8_formRII]
  case jmp | beq | bne | blt | bgt | bltu | bgtu => simp [decode, encode, fieldImm11_formIII]
  case cmpi | jr => simp [decode, encode, fieldA_formXRI, fieldImm5_formXRI]
  case cmp => simp [decode, encode, fieldA_formXRR, fieldB_formXRR]
  case not => simp [decode, encode, fieldC_formXRX, fieldA_formXRX]

/-- Each format, rebuilt from a word's own fields, gives the word with the bits the format ignores cleared (30_encoding.md R72 to R80). -/
theorem forms_of_fields (w : Word) :
    formX (opcode w) = w &&& 0xF800 ∧
    formRRR (opcode w) (fieldC w) (fieldA w) (fieldB w) = w &&& 0xFFFC ∧
    formRRI (opcode w) (fieldC w) (fieldA w) (fieldImm5 w) = w &&& 0xFFFF ∧
    formIRR (opcode w) (fieldB w) (fieldA w) (fieldSimm5 w) = w &&& 0xFFFF ∧
    formRII (opcode w) (fieldC w) (fieldImm8 w) = w &&& 0xFFFF ∧
    formIII (opcode w) (fieldImm11 w) = w &&& 0xFFFF ∧
    formXRI (opcode w) (fieldA w) (fieldImm5 w) = w &&& 0xF8FF ∧
    formXRR (opcode w) (fieldA w) (fieldB w) = w &&& 0xF8FC ∧
    formXRX (opcode w) (fieldC w) (fieldA w) = w &&& 0xFFE0 := by
  simp only [formX, formRRR, formRRI, formIRR, formRII, formIII, formXRI, formXRR, formXRX, opcode, fieldC, fieldA, fieldB,
    fieldImm5, fieldSimm5, fieldImm8, fieldImm11]
  refine ⟨?_, ?_, ?_, ?_, ?_, ?_, ?_, ?_, ?_⟩ <;>
    (apply BitVec.eq_of_getLsbD_eq
     intro i hi
     simp only [BitVec.getLsbD_and, BitVec.getLsbD_append, BitVec.getLsbD_extractLsb']
     interval_cases i <;> simp)

/-- Settles O2, by the opcode: each row's format, rebuilt from the word's fields, clears exactly the bits the row ignores. -/
theorem encodeOfDecodeClearsIgnoredBits : Obligations.EncodeOfDecodeClearsIgnoredBits := by
  intro w
  obtain ⟨hX, hRRR, hRRI, hIRR, hRII, hIII, hXRI, hXRR, hXRX⟩ := forms_of_fields w
  have hop : opcode w = BitVec.ofNat 5 (opcode w).toNat := by simp
  have hlt : (opcode w).toNat < 32 := (opcode w).isLt
  rw [hop] at hX hRRR hRRI hIRR hRII hIII hXRI hXRR hXRX
  unfold decode usedBits
  generalize (opcode w).toNat = n at *
  -- one arm of `decode` for each opcode: the arm `h_k` is opcode `k - 1`
  split
  case h_1 | h_2 | h_20 | h_24 => exact hX
  case h_8 | h_9 | h_10 | h_11 | h_12 | h_31 => exact hRRR
  case h_3 | h_15 | h_16 | h_17 | h_18 | h_19 | h_23 => exact hRRI
  case h_4 => exact hIRR
  case h_5 | h_6 => exact hRII
  case h_21 | h_25 | h_26 | h_27 | h_28 | h_29 | h_30 => exact hIII
  case h_14 | h_22 => exact hXRI
  case h_7 => exact hXRR
  case h_13 => exact hXRX
  case h_32 =>
    obtain rfl : n = 31 := by grind only
    exact hRRR

/-! ### The fields in plain numbers -/

/-- Concatenation shifts the upper part above the lower one. -/
theorem toNat_append_eq_add {m n : Nat} (x : BitVec m) (y : BitVec n) : (x ++ y).toNat = x.toNat * 2 ^ n + y.toNat := by
  rw [BitVec.toNat_append, ← Nat.shiftLeft_add_eq_or_of_lt y.isLt, Nat.shiftLeft_eq]

theorem fieldA_toNat (w : Word) : (fieldA w).toNat = w.toNat / 32 % 8 := by
  simp [fieldA, BitVec.extractLsb'_toNat, Nat.shiftRight_eq_div_pow]

theorem fieldB_toNat (w : Word) : (fieldB w).toNat = w.toNat / 4 % 8 := by
  simp [fieldB, BitVec.extractLsb'_toNat, Nat.shiftRight_eq_div_pow]

/-- The split immediate: bits 10 to 8 above bits 1 to 0 (30_encoding.md R75). -/
theorem fieldSimm5_toNat (w : Word) : (fieldSimm5 w).toNat = w.toNat / 256 % 8 * 4 + w.toNat % 4 :=
  calc (fieldSimm5 w).toNat
      = (w.extractLsb' 8 3).toNat * 2 ^ 2 + (w.extractLsb' 0 2).toNat := toNat_append_eq_add _ _
    _ = w.toNat / 256 % 8 * 4 + w.toNat % 4 := by simp [BitVec.extractLsb'_toNat, Nat.shiftRight_eq_div_pow]

/-- Only opcode 3 decodes to a STORE, and its operands are the fields of format IRR (30_encoding.md R75, R82). -/
theorem decode_eq_store {w : Word} {b a : RegIdx} {imm : BitVec 5} (h : decode w = .store b a imm) :
    fieldB w = b ∧ fieldA w = a ∧ fieldSimm5 w = imm := by
  unfold decode at h
  split at h
  case h_4 => simpa only [Instr.store.injEq] using h
  all_goals cases h

/-- STORE writes no register (43_load_store.md R221). -/
theorem exec_store_regsSame (b a : RegIdx) (imm : BitVec 5) (s : Machine.State) :
    ∃ t, Machine.exec (.store b a imm) s = .next t ∧ Machine.RegsSame s t :=
  ⟨_, rfl, fun r => by rw [Machine.State.advance_reg, Machine.State.dataStore_reg]⟩

/-- Settles O59: the operands of a STORE are its word's fields, and those fields in plain numbers. -/
theorem storeWordSplitsItsImmediate : Obligations.StoreWordSplitsItsImmediate := by
  intro w b a imm h
  rw [h]
  obtain ⟨rfl, rfl, rfl⟩ := decode_eq_store h
  have hsimm := fieldSimm5_toNat w
  exact ⟨⟨by omega, by omega, fieldA_toNat w, fieldB_toNat w⟩, exec_store_regsSame _ _ _⟩

/-! ### Written immediates -/

/-- A number in the signed range of `w` bits keeps its value when it is cut to `w` bits and sign-extended. -/
theorem signExtend_ofInt_toInt {w v : Nat} (hw : 0 < w) (hv : w ≤ v) {n : Int} (hlo : -2 ^ (w - 1) ≤ n) (hhi : n < 2 ^ (w - 1)) :
    ((BitVec.ofInt w n).signExtend v).toInt = n := by
  rw [BitVec.toInt_signExtend_of_le hv, BitVec.toInt_ofInt_eq_self hw hlo hhi]

theorem imm5InRange_iff (n : Int) : imm5InRange n = true ↔ -16 ≤ n ∧ n ≤ 15 := decide_eq_true_iff

theorem imm8InRange_iff (n : Int) : imm8InRange n = true ↔ -128 ≤ n ∧ n ≤ 255 := decide_eq_true_iff

theorem imm11InRange_iff (n : Int) : imm11InRange n = true ↔ -1024 ≤ n ∧ n ≤ 1023 := decide_eq_true_iff

/-- Settles O5: in range the assembler keeps the low bits of the number, out of range it answers nothing. -/
theorem writtenImmediatesReachTheirValue : Obligations.WrittenImmediatesReachTheirValue := by
  refine ⟨fun n hlo hhi => ⟨BitVec.ofInt 5 n, ?_, ?_⟩, fun n hlo hhi => ⟨BitVec.ofInt 11 n, ?_, ?_⟩,
    fun n hlo hhi => ⟨BitVec.ofInt 8 n, ?_, ?_⟩, fun n => ⟨fun hout => ?_, fun hout => ?_, fun hout => ?_⟩⟩
  · exact if_pos ((imm5InRange_iff n).mpr ⟨hlo, hhi⟩)
  · exact signExtend_ofInt_toInt (by decide) (by decide) hlo (by omega)
  · exact if_pos ((imm11InRange_iff n).mpr ⟨hlo, hhi⟩)
  · exact signExtend_ofInt_toInt (by decide) (by decide) hlo (by omega)
  · exact if_pos ((imm8InRange_iff n).mpr ⟨hlo, hhi⟩)
  · rw [BitVec.toNat_ofInt]
    omega
  · exact if_neg (by rw [imm5InRange_iff]; omega)
  · exact if_neg (by rw [imm11InRange_iff]; omega)
  · exact if_neg (by rw [imm8InRange_iff]; omega)

/-! ### Displacements -/

theorem setWidth_sext11 (d : BitVec 11) : (Machine.sext11 d).setWidth 11 = d := by
  ext i hi
  simp [Machine.sext11, BitVec.getLsbD_signExtend, hi]
  omega

/-- A difference is in the range of a displacement exactly when the 11 bits kept of it sign-extend to it (30_encoding.md R96). -/
theorem imm11InRange_toInt_iff (x : Word) : imm11InRange x.toInt = true ↔ Machine.sext11 (x.setWidth 11) = x := by
  have hx := x.isLt
  have hkeptlo := (x.setWidth 11).le_toInt
  have hkepthi := (x.setWidth 11).toInt_lt
  rw [imm11InRange_iff, ← BitVec.toInt_inj, Machine.sext11, BitVec.toInt_signExtend_of_le (by decide)]
  constructor
  · rintro ⟨hlo, hhi⟩
    rw [BitVec.toInt_setWidth, BitVec.toInt_eq_toNat_cond, Int.bmod_def] at *
    split at * <;> split <;> simp <;> omega
  · omega

/-- A displacement is assembled exactly for the target it reaches (30_encoding.md R96). -/
theorem assembleDisplacement_eq_some_iff (p target : Word) (d : BitVec 11) :
    assembleDisplacement p target = some d ↔ target - (p + 2) = Machine.sext11 d := by
  rw [assembleDisplacement, displacementInRange, Option.ite_none_right_eq_some, Option.some_inj, imm11InRange_toInt_iff]
  constructor
  · rintro ⟨hx, rfl⟩
    exact hx.symm
  · intro hx
    rw [hx, setWidth_sext11]
    exact ⟨rfl, rfl⟩

/-- Settles O6: both directions are `assembleDisplacement_eq_some_iff`, for `T = p + 2 + d` (45_control_transfer.md R240). -/
theorem displacementIsInverseOfTarget : Obligations.DisplacementIsInverseOfTarget := by
  constructor
  · intro p target d h
    rw [Machine.relativeTarget, ← (assembleDisplacement_eq_some_iff p target d).mp h, BitVec.add_comm, BitVec.sub_add_cancel]
  · intro p d
    rw [assembleDisplacement_eq_some_iff, Machine.relativeTarget, BitVec.add_comm, BitVec.add_sub_cancel]

end Sys2Proof
end

section
/-!
PROOFS. The decode table (spec 30_encoding.md R84, R88 to R93): its address, W1 to W4 over the signals, the entries that depend on the
flags, the control words in flight, and that no entry of `REFDT` uses a bit its format ignores.
-/

namespace Sys2Proof.Machine

/-! ### The address -/

/-- Settles O7: each part of the address is shifted above the parts after it. -/
theorem tableAddressPlacesFlagsAndOpcode : Obligations.TableAddressPlacesFlagsAndOpcode := by
  intro fl op
  calc (tableAddress fl op).toNat
      = (BitVec.ofBool fl.n ++ BitVec.ofBool fl.v ++ BitVec.ofBool fl.z ++ BitVec.ofBool fl.c).toNat * 2 ^ 5 + op.toNat :=
        toNat_append_eq_add _ _
    _ = fl.n.toNat * 256 + fl.v.toNat * 128 + fl.z.toNat * 64 + fl.c.toNat * 32 + op.toNat := by
        simp only [toNat_append_eq_add, BitVec.toNat_ofBool]
        omega

/-- The opcode bits of an address in plain numbers (30_encoding.md R88). -/
theorem addressOpcode_eq_zero_iff (k : BitVec 9) : k.extractLsb' 0 5 = 0 ↔ k.toNat % 32 = 0 := by
  rw [← BitVec.toNat_inj]
  simp [BitVec.extractLsb'_toNat]

/-! ### W1 to W4 -/

theorem w1_iff (cw : CtlWord) : CtlWord.w1 cw = true ↔ ¬(CtlWord.memLoad cw = true ∧ CtlWord.memStore cw = true) := by
  simp [CtlWord.w1, imp_iff_not_or]

theorem w2_iff (cw : CtlWord) : CtlWord.w2 cw = true ↔ (CtlWord.memStore cw = true → CtlWord.assertStoreOp cw = true) := by
  simp [CtlWord.w2, imp_iff_not_or]

theorem w3_iff (cw : CtlWord) :
    CtlWord.w3 cw = true ↔
      CtlWord.fi cw = true ∧ CtlWord.hlt cw = false ∧ CtlWord.j cw = false ∧ CtlWord.memLoad cw = false ∧
        CtlWord.memStore cw = false ∧ CtlWord.wrl cw = false ∧ CtlWord.wrh cw = false ∧ CtlWord.wben cw = false := by
  simp [CtlWord.w3, and_assoc]

theorem w4_iff (cw : CtlWord) :
    CtlWord.w4 cw = true ↔
      (CtlWord.leftUnused cw = true → CtlWord.rs0 cw = false) ∧
      (CtlWord.rightUnused cw = true → ¬(CtlWord.selRightOp cw = 0 ∧ CtlWord.rs1 cw = true) ∧
        ¬(CtlWord.selStoreOp cw = 0 ∧ (CtlWord.memStore cw = true ∨ (CtlWord.writeBackSrcFlag cw = true ∧
          (CtlWord.wrl cw = true ∨ CtlWord.wrh cw = true ∨ CtlWord.wben cw = true))))) := by
  simp [CtlWord.w4, imp_iff_not_or, and_assoc]

theorem entryWellFormed_iff (k : BitVec 9) (cw : CtlWord) :
    entryWellFormed k cw = true ↔
      CtlWord.w1 cw = true ∧ CtlWord.w2 cw = true ∧ (k.extractLsb' 0 5 = 0 → CtlWord.w3 cw = true) ∧ CtlWord.w4 cw = true := by
  simp only [entryWellFormed, Bool.and_eq_true, Bool.or_eq_true, bne_iff_ne, and_assoc, imp_iff_not_or, ne_eq]

/-- A well-formed table is well-formed at every address (30_encoding.md R90). -/
theorem entryWellFormed_of_table {dt : DecodeTable} (h : tableWellFormed dt = true) (k : BitVec 9) :
    entryWellFormed k (dt k) = true := by
  have hk := List.all_eq_true.mp h k.toNat (List.mem_range.mpr k.isLt)
  simpa using hk

/-- Settles O8: `REFDT` passes the table check, and each check is its condition over the signals. -/
theorem referenceTableIsWellFormed : Obligations.ReferenceTableIsWellFormed := by
  refine ⟨Params.ref.wellFormed, ?_⟩
  rintro k cw rfl
  obtain ⟨h1, h2, h3, h4⟩ := (entryWellFormed_iff k _).mp (entryWellFormed_of_table Params.ref.wellFormed k)
  obtain ⟨hleft, hright⟩ := (w4_iff _).mp h4
  exact ⟨(w1_iff _).mp h1, (w2_iff _).mp h2, fun hk => (w3_iff _).mp (h3 ((addressOpcode_eq_zero_iff k).mpr hk)), hleft, hright⟩

/-! ### Control words in flight -/

/-- Every control word looked up in a well-formed table asks for at most one data access (30_encoding.md R90 W1, W2). -/
theorem lookupCtl_accessOk (p : Params) (fl : Flags) (w : Word) : CtlWord.accessOk (lookupCtl p fl w) := by
  obtain ⟨h1, h2, -, -⟩ := (entryWellFormed_iff _ _).mp (entryWellFormed_of_table p.wellFormed (tableAddress fl (opcode w)))
  exact ⟨h1, h2⟩

/-- ID sends on a bubble or what it looked up (40_pipeline.md R138). -/
theorem nextIDEX_accessOk (p : Params) (rst : Bool) (s : State) : CtlWord.accessOk (nextIDEX p rst s).ctl := by
  unfold nextIDEX
  dsimp only
  split
  · exact accessOk_nopcw
  · exact lookupCtl_accessOk p _ _

/-- Settles O40: the new control word is ID's, and the two others move on by one latch. -/
theorem cycleKeepsSingleAccessControl : Obligations.CycleKeepsSingleAccessControl := by
  rintro p rst s ⟨hidex, hexmem, -⟩
  exact ⟨nextIDEX_accessOk p rst s, hidex, hexmem⟩

/-! ### The entries that depend on the flags -/

/-- The six branch entries (30_encoding.md R91, R92). -/
theorem refdt_branch (fl : Flags) :
    refdt (tableAddress fl 24) = branchcw (condBeq fl) ∧ refdt (tableAddress fl 25) = branchcw (condBne fl) ∧
    refdt (tableAddress fl 26) = branchcw (condBlt fl) ∧ refdt (tableAddress fl 27) = branchcw (condBgt fl) ∧
    refdt (tableAddress fl 28) = branchcw (condBltu fl) ∧ refdt (tableAddress fl 29) = branchcw (condBgtu fl) := by
  simp [refdt]

/-- A branch entry whose condition says `P` is JMP's control word when `P` holds and `NOPCW` when it does not (30_encoding.md R91). -/
theorem branchcw_of_iff {taken : Bool} {P : Prop} [Decidable P] (h : taken = true ↔ P) :
    branchcw taken = if P then 0x6019B8 else 0x600020 := by
  simp only [branchcw, jumpcw, nopcw, h]

/-- The carry-in of ADC and SBC is the Carry flag (30_encoding.md R93). -/
theorem refdt_carryIn (fl : Flags) :
    CtlWord.c0 (refdt (tableAddress fl 30)) = fl.c ∧ CtlWord.c0 (refdt (tableAddress fl 31)) = fl.c := by
  cases hc : fl.c <;> simp [refdt, hc] <;> decide

/-- Settles O9: the entries by `refdt_branch` and `refdt_carryIn`, the conditions as R92 writes them. -/
theorem referenceTableResolvesFlags : Obligations.ReferenceTableResolvesFlags := by
  intro fl
  obtain ⟨hbeq, hbne, hblt, hbgt, hbltu, hbgtu⟩ := refdt_branch fl
  rw [hbeq, hbne, hblt, hbgt, hbltu, hbgtu]
  exact ⟨branchcw_of_iff Iff.rfl, branchcw_of_iff (by simp [condBne]), branchcw_of_iff (by simp [condBlt]),
    branchcw_of_iff (by simp [condBgt]), branchcw_of_iff (by simp [condBltu]), branchcw_of_iff (by simp [condBgtu]),
    refdt_carryIn fl⟩

/-! ### What an instruction reads of its word -/

/-- The ALU reads an operand only through its gate (40_pipeline.md R127). -/
theorem aluStage_congr {cw : CtlWord} {a a' r r' : Word} (ha : CtlWord.rs0 cw = true → a = a')
    (hr : CtlWord.rs1 cw = true → r = r') : aluStage cw a r = aluStage cw a' r' := by
  have hleft : leftInput cw a = leftInput cw a' := by
    unfold leftInput
    split
    case isTrue h => exact ha h
    case isFalse => rfl
  have hright : rightInput cw r = rightInput cw r' := by
    unfold rightInput
    split
    case isTrue h => exact hr h
    case isFalse => rfl
  rw [aluStage, hleft, hright, aluStage]

/-- The data access reads the store operand only to store it (40_pipeline.md R124). -/
theorem memAccess_congr_sop (p : Params) {cw : CtlWord} (y : Word) {sop sop' : Word} (s : State)
    (h : CtlWord.memStore cw = true → sop = sop') : memAccess p cw y sop s = memAccess p cw y sop' s := by
  cases hst : CtlWord.memStore cw with
  | true => rw [h hst]
  | false => simp [memAccess, hst]

/-- A commit reads its register number only when a lane is enabled (40_pipeline.md R122). -/
theorem commitReg_congr {cw : CtlWord} {c c' : RegIdx} (v : Word) (regs : Vector Word 8)
    (h : CtlWord.writesLo cw = true ∨ CtlWord.writesHi cw = true → c = c') : commitReg cw c v regs = commitReg cw c' v regs := by
  by_cases hen : CtlWord.writesLo cw = true ∨ CtlWord.writesHi cw = true
  · rw [h hen]
  · simp only [not_or, Bool.not_eq_true] at hen
    obtain ⟨hlo, hhi⟩ := hen
    rw [commitReg_disabled cw c v regs hlo hhi, commitReg_disabled cw c' v regs hlo hhi]

/-- Two words with the same opcode have the same effect when they agree in what their control word uses (40_pipeline.md R146). -/
theorem insnEffect_congr (p : Params) (s : State) {v w : Word} {cw : CtlWord} (hop : opcode v = opcode w)
    (hcw : lookupCtl p s.flags w = cw) (hleft : CtlWord.rs0 cw = true → fieldA v = fieldA w)
    (hright : CtlWord.rs1 cw = true → rightOperand cw (s.reg (fieldB v)) v = rightOperand cw (s.reg (fieldB w)) w)
    (hsop : CtlWord.memStore cw = true ∨ CtlWord.writeBackSrcFlag cw = true →
      storeOperand cw (s.reg (fieldB v)) v s.pc = storeOperand cw (s.reg (fieldB w)) w s.pc)
    (hdest : CtlWord.writesLo cw = true ∨ CtlWord.writesHi cw = true → fieldC v = fieldC w) :
    insnEffect p v s = insnEffect p w s := by
  have hcw' : lookupCtl p s.flags v = cw := by rw [← hcw, lookupCtl, hop, lookupCtl]
  unfold insnEffect
  simp only [hcw, hcw']
  rw [aluStage_congr (fun h => congrArg s.reg (hleft h)) hright,
    memAccess_congr_sop p _ s (fun h => hsop (.inl h)), commitReg_congr _ s.regs hdest]
  cases hwb : CtlWord.writeBackSrcFlag cw with
  | true => rw [hsop (.inr hwb)]
  | false => rfl

/-- Two words in ID with the same opcode stall alike when they agree in the fields their hints call used (40_pipeline.md R136, R137). -/
theorem stall_congr (p : Params) (rst : Bool) (s : State) {v w : Word} {cw : CtlWord} (hop : opcode v = opcode w)
    (hcw : lookupCtl p (exFlags s) w = cw) (hleft : CtlWord.leftUnused cw = false → fieldA v = fieldA w)
    (hright : CtlWord.rightUnused cw = false → fieldB v = fieldB w) :
    stall p rst { s with ifid := { s.ifid with ins := v } } = stall p rst { s with ifid := { s.ifid with ins := w } } := by
  have hcw' : lookupCtl p (exFlags s) v = cw := by rw [← hcw, lookupCtl, hop, lookupCtl]
  have hhazard (u : Word) : hazard p { s with ifid := { s.ifid with ins := u } } =
      ((!CtlWord.leftUnused (lookupCtl p (exFlags s) u) && regHazard s (fieldA u)) ||
        (!CtlWord.rightUnused (lookupCtl p (exFlags s) u) && regHazard s (fieldB u))) := rfl
  unfold stall
  rw [hhazard, hhazard, hcw, hcw']
  cases hl : CtlWord.leftUnused cw <;> cases hr : CtlWord.rightUnused cw <;> simp [hl, hr, hleft, hright]

/-! ### Ignored bits -/

/-- A mask that keeps a whole field of a word keeps the field's value. -/
theorem extractLsb'_and_of_allOnes {w m : Word} {start len : Nat} (h : m.extractLsb' start len = BitVec.allOnes len) :
    (w &&& m).extractLsb' start len = w.extractLsb' start len := by
  rw [BitVec.extractLsb'_and, h, BitVec.and_allOnes]

/-- The same for the split immediate, which two parts of the word hold (30_encoding.md R75). -/
theorem fieldSimm5_and_of_allOnes {w m : Word} (h : fieldSimm5 m = BitVec.allOnes 5) : fieldSimm5 (w &&& m) = fieldSimm5 w :=
  calc fieldSimm5 (w &&& m)
      = (w.extractLsb' 8 3 &&& m.extractLsb' 8 3) ++ (w.extractLsb' 0 2 &&& m.extractLsb' 0 2) := by
        simp only [fieldSimm5, BitVec.extractLsb'_and]
    _ = fieldSimm5 w &&& fieldSimm5 m := BitVec.and_append.symm
    _ = fieldSimm5 w := by rw [h, BitVec.and_allOnes]

/-- The mask keeps the field that the right operand is taken from (40_pipeline.md R125). -/
def keepsRightOperand (cw : CtlWord) (m : Word) : Bool :=
  match (CtlWord.selRightOp cw).toNat with
  | 0 => fieldB m == BitVec.allOnes 3
  | 1 => fieldImm5 m == BitVec.allOnes 5
  | 2 => fieldSimm5 m == BitVec.allOnes 5
  | _ => fieldImm11 m == BitVec.allOnes 11

/-- The mask keeps the field that the store operand is taken from, if it is taken from one (40_pipeline.md R126). -/
def keepsStoreOperand (cw : CtlWord) (m : Word) : Bool :=
  match (CtlWord.selStoreOp cw).toNat with
  | 0 => fieldB m == BitVec.allOnes 3
  | 1 => true
  | _ => fieldImm8 m == BitVec.allOnes 8

/-- The mask keeps every field of the word that the control word reads, or that its hints say it reads. -/
abbrev KeepsUsedFields (cw : CtlWord) (m : Word) : Prop :=
  (CtlWord.rs0 cw = true ∨ CtlWord.leftUnused cw = false → fieldA m = BitVec.allOnes 3) ∧
  (CtlWord.rightUnused cw = false → fieldB m = BitVec.allOnes 3) ∧
  (CtlWord.rs1 cw = true → keepsRightOperand cw m = true) ∧
  (CtlWord.memStore cw = true ∨ CtlWord.writeBackSrcFlag cw = true → keepsStoreOperand cw m = true) ∧
  (CtlWord.writesLo cw = true ∨ CtlWord.writesHi cw = true → fieldC m = BitVec.allOnes 3)

theorem rightOperand_and {cw : CtlWord} {m : Word} (h : keepsRightOperand cw m = true) (w : Word) (s : State) :
    rightOperand cw (s.reg (fieldB (w &&& m))) (w &&& m) = rightOperand cw (s.reg (fieldB w)) w := by
  unfold keepsRightOperand at h
  unfold rightOperand
  generalize (CtlWord.selRightOp cw).toNat = sel at h ⊢
  match sel, h with
  | 0, hB => exact congrArg s.reg (extractLsb'_and_of_allOnes (beq_iff_eq.mp hB))
  | 1, himm5 => exact congrArg sext5 (extractLsb'_and_of_allOnes (beq_iff_eq.mp himm5))
  | 2, hsimm5 => exact congrArg sext5 (fieldSimm5_and_of_allOnes (beq_iff_eq.mp hsimm5))
  | _ + 3, himm11 => exact congrArg sext11 (extractLsb'_and_of_allOnes (beq_iff_eq.mp himm11))

theorem storeOperand_and {cw : CtlWord} {m : Word} (h : keepsStoreOperand cw m = true) (w : Word) (s : State) (pc : Word) :
    storeOperand cw (s.reg (fieldB (w &&& m))) (w &&& m) pc = storeOperand cw (s.reg (fieldB w)) w pc := by
  unfold keepsStoreOperand at h
  unfold storeOperand
  generalize (CtlWord.selStoreOp cw).toNat = sel at h ⊢
  match sel, h with
  | 0, hB => exact congrArg s.reg (extractLsb'_and_of_allOnes (beq_iff_eq.mp hB))
  | 1, _ => rfl
  | 2, himm8 => exact congrArg sext8 (extractLsb'_and_of_allOnes (beq_iff_eq.mp himm8))
  | _ + 3, himm8 => exact congrArg imm8High (extractLsb'_and_of_allOnes (beq_iff_eq.mp himm8))

/-- Which bits are ignored depends on the opcode only. -/
theorem usedBits_formX_opcode (w : Word) : usedBits (formX (opcode w)) = usedBits w := by
  simp only [usedBits, opcode_formX]

/-- No format ignores a bit of the opcode (30_encoding.md R72 to R80). -/
theorem opcode_and_usedBits (w : Word) : opcode (w &&& usedBits w) = opcode w := by
  refine extractLsb'_and_of_allOnes ?_
  unfold usedBits
  split <;> rfl

/-- At each of the 512 addresses the entry of `REFDT` uses no bit that the format of the opcode ignores (30_encoding.md R84, R91). -/
theorem refdt_keepsUsedFields (k : BitVec 9) : KeepsUsedFields (refdt k) (usedBits (formX (k.extractLsb' 0 5))) := by
  revert k
  decide

theorem lookupCtl_keepsUsedFields {p : Params} (hp : p.dt = refdt) (fl : Flags) (w : Word) :
    KeepsUsedFields (lookupCtl p fl w) (usedBits w) := by
  have h := refdt_keepsUsedFields (tableAddress fl (opcode w))
  rwa [extract_tableAddress, usedBits_formX_opcode, ← hp] at h

/-- Settles O3: the cleared word has the word's opcode, and `REFDT` reads no cleared bit. -/
theorem ignoredBitsHaveNoEffect : Obligations.IgnoredBitsHaveNoEffect := by
  constructor
  · intro w s
    obtain ⟨hA, -, hright, hsop, hC⟩ := lookupCtl_keepsUsedFields (p := Params.ref) rfl s.flags w
    exact insnEffect_congr Params.ref s (opcode_and_usedBits w) rfl
      (fun h => extractLsb'_and_of_allOnes (hA (.inl h))) (fun h => rightOperand_and (hright h) w s)
      (fun h => storeOperand_and (hsop h) w s s.pc) (fun h => extractLsb'_and_of_allOnes (hC h))
  · intro p rst w s hp
    obtain ⟨hA, hB, -, -, -⟩ := lookupCtl_keepsUsedFields hp (exFlags s) w
    exact stall_congr p rst s (opcode_and_usedBits w) rfl
      (fun h => extractLsb'_and_of_allOnes (hA (.inr h))) (fun h => extractLsb'_and_of_allOnes (hB h))

end Sys2Proof.Machine
end

section
/-!
PROOFS. The branch conditions (spec 30_encoding.md R92): after a compare, each one is the comparison its mnemonic names.
-/

namespace Sys2Proof.Machine

/-! ### The conditions on the flags of a difference -/

theorem condBeq_differenceFlags (x y : Word) : condBeq (differenceFlags x y 0) = true ↔ x = y := by
  have hx := x.isLt
  have hy := y.isLt
  rw [condBeq, differenceFlags, decide_eq_true_eq, ← BitVec.toNat_inj]
  omega

theorem condBne_differenceFlags (x y : Word) : condBne (differenceFlags x y 0) = true ↔ x ≠ y := by
  rw [ne_eq, ← condBeq_differenceFlags]
  simp [condBne, condBeq]

/-- The sign of the wrapped difference is wrong exactly when the signed difference overflows. -/
theorem condBlt_differenceFlags (x y : Word) : condBlt (differenceFlags x y 0) = true ↔ x.toInt < y.toInt := by
  have hx := x.isLt
  have hy := y.isLt
  rw [condBlt, bne_iff_ne, ne_eq, differenceFlags, decide_eq_decide, BitVec.toInt_eq_toNat_cond, BitVec.toInt_eq_toNat_cond]
  split <;> split <;> omega

/-- Greater is neither equal nor less. -/
theorem condBgt_differenceFlags (x y : Word) : condBgt (differenceFlags x y 0) = true ↔ y.toInt < x.toInt := by
  have hsplit : condBgt (differenceFlags x y 0) = true ↔
      ¬condBeq (differenceFlags x y 0) = true ∧ ¬condBlt (differenceFlags x y 0) = true := by
    simp [condBgt, condBeq, condBlt]
  rw [hsplit, condBeq_differenceFlags, condBlt_differenceFlags, ← BitVec.toInt_inj]
  omega

theorem condBltu_differenceFlags (x y : Word) : condBltu (differenceFlags x y 0) = true ↔ x.toNat < y.toNat := by
  simp [condBltu, differenceFlags]

/-- Greater is neither less nor equal. -/
theorem condBgtu_differenceFlags (x y : Word) : condBgtu (differenceFlags x y 0) = true ↔ y.toNat < x.toNat := by
  have hsplit : condBgtu (differenceFlags x y 0) = true ↔
      ¬condBltu (differenceFlags x y 0) = true ∧ ¬condBeq (differenceFlags x y 0) = true := by
    simp [condBgtu, condBeq, condBltu]
  rw [hsplit, condBltu_differenceFlags, condBeq_differenceFlags, ← BitVec.toNat_inj]
  omega

/-! ### A branch after a compare -/

/-- A branch on a condition that says `P` goes to its target exactly when `P` holds (45_control_transfer.md R244 to R249). -/
theorem State.branch_pc_of_iff {taken : Bool} {P : Prop} [Decidable P] (h : taken = true ↔ P) (imm : BitVec 11) (s : State) :
    (s.branch taken imm).pc = if P then relativeTarget s.pc imm else s.pc + 1 := by
  simp only [State.branch_eq, h]

/-- `CMP` leaves the flags of the difference (41_alu_register.md R181). -/
theorem exec_cmp_flags (a b : RegIdx) (s : State) :
    ∃ t, exec (.cmp a b) s = .next t ∧ t.flags = differenceFlags (s.reg a) (s.reg b) 0 :=
  ⟨_, rfl, add3_not_flags _ _ _⟩

/-- Settles O29: `CMP` leaves the flags of the difference, and on those each condition is its comparison. -/
theorem compareThenBranchMeansItsName : Obligations.CompareThenBranchMeansItsName := by
  intro a b d s
  obtain ⟨t, ht, hflags⟩ := exec_cmp_flags a b s
  refine ⟨t, ht, ⟨_, rfl, State.branch_pc_of_iff ?_ d t⟩, ⟨_, rfl, State.branch_pc_of_iff ?_ d t⟩,
    ⟨_, rfl, State.branch_pc_of_iff ?_ d t⟩, ⟨_, rfl, State.branch_pc_of_iff ?_ d t⟩,
    ⟨_, rfl, State.branch_pc_of_iff ?_ d t⟩, ⟨_, rfl, State.branch_pc_of_iff ?_ d t⟩⟩ <;> rw [hflags]
  · exact condBeq_differenceFlags _ _
  · exact condBne_differenceFlags _ _
  · exact condBlt_differenceFlags _ _
  · exact condBgt_differenceFlags _ _
  · exact condBltu_differenceFlags _ _
  · exact condBgtu_differenceFlags _ _

end Sys2Proof.Machine
end

section
/-!
PROOFS. One clock cycle (spec 40_pipeline.md R120 to R145): the four things IF and ID can do in it, control words without effect,
stalls, forwarding, and what follows for the flags, the fetch address, a HLT in flight and a stream of NOPs.
-/

namespace Sys2Proof.Machine

/-! ### What IF and ID do in a cycle -/

/-- `PC` two words on (40_pipeline.md R143). -/
theorem add_one_add_one (x : Word) : x + 1 + 1 = x + 2 := BitVec.add_assoc x 1 1

/-- ID's latch but its control word moves on in every cycle (40_pipeline.md R138). -/
@[simp] theorem cycle_idex_ins (p : Params) (rst : Bool) (s : State) : (cycle p rst s).idex.ins = s.ifid.ins := rfl
@[simp] theorem cycle_idex_pc (p : Params) (rst : Bool) (s : State) : (cycle p rst s).idex.pc = s.ifid.pc := rfl

/-- A stall takes a hazard, and neither a taken jump nor reset (40_pipeline.md R137). -/
theorem stall_iff (p : Params) (rst : Bool) (s : State) :
    stall p rst s = true ↔ hazard p s = true ∧ CtlWord.j s.idex.ctl = false ∧ rst = false := by
  simp [stall, and_assoc]

/-- Reset clears `PC` and ID's word and sends a bubble to EX (40_pipeline.md R138, R139). -/
theorem cycle_of_reset (p : Params) (s : State) :
    (cycle p true s).idex.ctl = nopcw ∧ (cycle p true s).ifid = ⟨0x0000, 0x0000⟩ ∧ (cycle p true s).pc = 0x0000 :=
  ⟨rfl, rfl, rfl⟩

/-- A stall holds `PC` and ID and sends a bubble to EX (40_pipeline.md R138, R139). -/
theorem cycle_of_stall {p : Params} {rst : Bool} {s : State} (h : stall p rst s = true) :
    (cycle p rst s).idex.ctl = nopcw ∧ (cycle p rst s).ifid = s.ifid ∧ (cycle p rst s).pc = s.pc := by
  obtain ⟨-, -, rfl⟩ := (stall_iff p rst s).mp h
  simp [nextIDEX, nextIFID, nextPC, h]

/-- A taken jump sends `PC` to its target, the NOP word to ID and a bubble to EX, and the fetch is made (40_pipeline.md R138, R139). -/
theorem cycle_of_jump (p : Params) {s : State} (h : CtlWord.j s.idex.ctl = true) :
    (cycle p false s).idex.ctl = nopcw ∧ (cycle p false s).ifid = ⟨0x0000, s.pc⟩ ∧
      (cycle p false s).pc = (if CtlWord.jabs s.idex.ctl then (exAlu s).f else s.pc + (exAlu s).f) ∧
      fetches p false s = true := by
  have hstall := stall_of_jump p false s h
  simp [nextIDEX, nextIFID, nextPC, fetches, hstall, h]

/-- With nothing in the way each instruction moves on by one stage (40_pipeline.md R138, R139). -/
theorem cycle_of_flow {p : Params} {s : State} (hj : CtlWord.j s.idex.ctl = false) (hs : stall p false s = false) :
    (cycle p false s).idex.ctl = idCtl p s ∧ (cycle p false s).ifid = ⟨s.imem.read s.pc, s.pc⟩ ∧
      (cycle p false s).pc = s.pc + 1 := by
  simp [nextIDEX, nextIFID, nextPC, hj, hs]

/-! ### Control words without effect -/

theorem w3_nopcw : CtlWord.w3 nopcw = true := rfl

/-- Opcode 0 has no effect in any well-formed table (30_encoding.md R90 W3). -/
theorem lookupCtl_w3_of_nop (p : Params) (fl : Flags) {w : Word} (hw : opcode w = 0) :
    CtlWord.w3 (lookupCtl p fl w) = true := by
  obtain ⟨-, -, h3, -⟩ := (entryWellFormed_iff _ _).mp (entryWellFormed_of_table p.wellFormed (tableAddress fl (opcode w)))
  exact h3 (by rw [extract_tableAddress, hw])

theorem lanes_of_w3 {cw : CtlWord} (h : CtlWord.w3 cw = true) :
    CtlWord.writesLo cw = false ∧ CtlWord.writesHi cw = false := by
  obtain ⟨-, -, -, -, -, hwrl, hwrh, hwben⟩ := (w3_iff cw).mp h
  simp [CtlWord.writesLo, CtlWord.writesHi, hwrl, hwrh, hwben]

theorem commitReg_of_w3 {cw : CtlWord} (h : CtlWord.w3 cw = true) (c : RegIdx) (v : Word) (regs : Vector Word 8) :
    commitReg cw c v regs = regs :=
  commitReg_disabled cw c v regs (lanes_of_w3 h).1 (lanes_of_w3 h).2

theorem memAccess_of_w3 (p : Params) {cw : CtlWord} (h : CtlWord.w3 cw = true) (y sop : Word) (s : State) :
    memAccess p cw y sop s = (y, s) := by
  obtain ⟨-, -, -, hload, hstore, -⟩ := (w3_iff cw).mp h
  exact memAccess_none p cw y sop s hload hstore

theorem j_of_w3 {cw : CtlWord} (h : CtlWord.w3 cw = true) : CtlWord.j cw = false := by
  obtain ⟨-, -, hj, -⟩ := (w3_iff cw).mp h
  exact hj

theorem hlt_of_w3 {cw : CtlWord} (h : CtlWord.w3 cw = true) : CtlWord.hlt cw = false := by
  obtain ⟨-, hhlt, -⟩ := (w3_iff cw).mp h
  exact hhlt

/-- A control word that suppresses the flags leaves them alone in EX (40_pipeline.md R130). -/
theorem exFlags_of_fi {s : State} (h : CtlWord.fi s.idex.ctl = true) : exFlags s = s.flags := by
  simp [exFlags, h]

theorem exFlags_of_w3 {s : State} (h : CtlWord.w3 s.idex.ctl = true) : exFlags s = s.flags := by
  obtain ⟨hfi, -⟩ := (w3_iff s.idex.ctl).mp h
  exact exFlags_of_fi hfi

/-- Nothing waits for an instruction in EX that writes no register (40_pipeline.md R136). -/
theorem stall_of_w3 (p : Params) (rst : Bool) {s : State} (h : CtlWord.w3 s.idex.ctl = true) : stall p rst s = false := by
  have hhaz (r : RegIdx) : regHazard s r = false := by
    simp [regHazard, pendingEX, (lanes_of_w3 h).1, (lanes_of_w3 h).2]
  simp [stall, hazard, hhaz]

/-! ### Hazards and stalls -/

/-- Only the word of a load is not there in EX (40_pipeline.md R135, R136). -/
theorem memLoad_of_regHazard {s : State} {r : RegIdx} (h : regHazard s r = true) : CtlWord.memLoad s.idex.ctl = true := by
  simp only [regHazard, pendingEXAvailable, Bool.and_eq_true, Bool.not_eq_true', Bool.or_eq_false_iff, Bool.not_eq_false'] at h
  obtain ⟨-, -, hload⟩ := h
  exact hload

/-- The operands whose values are missing, as the hints of the instruction in ID name them (40_pipeline.md R136). -/
theorem hazard_iff (p : Params) (s : State) :
    hazard p s = true ↔
      (CtlWord.leftUnused (idCtl p s) = false ∧ regHazard s (fieldA s.ifid.ins) = true) ∨
      (CtlWord.rightUnused (idCtl p s) = false ∧ regHazard s (fieldB s.ifid.ins) = true) := by
  simp [hazard]

/-- Settles O47: a hazard takes a load in EX, and the stall puts a bubble there. -/
theorem stallLastsOneCycle : Obligations.StallLastsOneCycle := by
  intro p rst s h
  obtain ⟨hhaz, hj, hrst⟩ := (stall_iff p rst s).mp h
  have hload : CtlWord.memLoad s.idex.ctl = true := by
    obtain ⟨-, hr⟩ | ⟨-, hr⟩ := (hazard_iff p s).mp hhaz
    · exact memLoad_of_regHazard hr
    · exact memLoad_of_regHazard hr
  obtain ⟨hbubble, -⟩ := cycle_of_stall h
  exact ⟨hload, hj, hrst, fun rst' => stall_bubble p rst' hbubble⟩

/-- Settles O49: the taken-jump case of the cycle. -/
theorem takenJumpSquashesTwoSlots : Obligations.TakenJumpSquashesTwoSlots :=
  fun p _ h => cycle_of_jump p h

/-! ### Commit and flags -/

/-- Settles O44: the commit merges the enabled lanes into WB's register. -/
theorem commitWritesEnabledLanes : Obligations.CommitWritesEnabledLanes := by
  intro p rst s
  rw [cycle_reg, if_pos rfl]
  rfl

/-- Settles O45: the flags after a cycle are EX's, and ID looks up with the same. -/
theorem flagsFollowFlagInhibit : Obligations.FlagsFollowFlagInhibit :=
  fun _ _ _ => ⟨rfl, rfl, exFlags_bubble⟩

/-! ### Forwarding -/

/-- A pending write of another register is not seen (40_pipeline.md R135). -/
theorem PendingWrite.over_of_ne {w : PendingWrite} {r : RegIdx} (h : r ≠ w.sel) (old : Word) : w.over r old = old := by
  simp [PendingWrite.over, beq_eq_false_iff_ne.mpr h.symm]

/-- A commit, read back, is a pending write laid over the old value (40_pipeline.md R122, R135). -/
theorem readReg_commitReg_eq_over (cw : CtlWord) (c r : RegIdx) (v : Word) (regs : Vector Word 8) :
    readReg (commitReg cw c v regs) r =
      PendingWrite.over ⟨CtlWord.writesLo cw, CtlWord.writesHi cw, c, v⟩ r (readReg regs r) := by
  rw [readReg_commitReg]
  by_cases h : r = c
  · simp [PendingWrite.over, h]
  · rw [if_neg h, PendingWrite.over_of_ne h]

/-- What a pending write shows of its value, it shows in an enabled lane of its own register only. -/
theorem PendingWrite.over_congr_val {lo hi : Bool} {c r : RegIdx} {v v' : Word} (old : Word)
    (h : (lo || hi) = true → c = r → v = v') :
    PendingWrite.over ⟨lo, hi, c, v⟩ r old = PendingWrite.over ⟨lo, hi, c, v'⟩ r old := by
  by_cases hc : r = c
  · by_cases hen : (lo || hi) = true
    · rw [h hen hc.symm]
    · simp only [Bool.or_eq_true, not_or, Bool.not_eq_true] at hen
      rw [over_none _ r old hen.1 hen.2, over_none _ r old hen.1 hen.2]
  · rw [over_of_ne hc, over_of_ne hc]

/-- Without a load MEM passes the ALU's result on (40_pipeline.md R124). -/
theorem memAccess_word (p : Params) (cw : CtlWord) (y sop : Word) (s : State) :
    (memAccess p cw y sop s).1 = if CtlWord.memLoad cw then p.dload (dataCalls s.calls) s.dmem y else y := by
  unfold memAccess
  cases CtlWord.memLoad cw <;> rfl

/-- The value EX forwards is the one it will commit, unless it is the word of a load (40_pipeline.md R135). -/
theorem pendingEX_val_of_available {p : Params} {s : State} (h : pendingEXAvailable s = true) :
    (pendingEX s).val =
      if CtlWord.writeBackSrcFlag s.idex.ctl then exStoreOp s else (memStage p (cycle p false s)).1 := by
  cases hwb : CtlWord.writeBackSrcFlag s.idex.ctl with
  | true => simp [pendingEX, hwb]
  | false =>
    have hload : CtlWord.memLoad s.idex.ctl = false := by simpa [pendingEXAvailable, hwb] using h
    have hmem : (memStage p (cycle p false s)).1 = (exAlu s).f := by
      simp [memStage, memAccess_word, nextEXMEM, hload]
    simp [pendingEX, hwb, hmem]

/-- Settles O48: each forwarded write is the commit it stands for, EX's because its value is there. -/
theorem forwardingReadsProgramOrderValue : Obligations.ForwardingReadsProgramOrderValue := by
  intro p s r h
  rw [readReg_commitReg_eq_over, readReg_commitReg_eq_over]
  refine PendingWrite.over_congr_val _ fun hen hsel => pendingEX_val_of_available ?_
  have hlanes : ((pendingEX s).lo || (pendingEX s).hi) = true := hen
  have hreg : ((pendingEX s).sel == r) = true := beq_iff_eq.mpr hsel
  simpa [regHazard, hlanes, hreg] using h

/-! ### The fetch address -/

/-- The NOP word decodes to a bubble's control word under `REFDT` (46_system.md R260). -/
theorem lookupCtl_nop {p : Params} (hp : p.dt = refdt) (fl : Flags) {w : Word} (hw : opcode w = 0) :
    lookupCtl p fl w = nopcw := by
  rw [lookupCtl, hp, refdt, extract_tableAddress, hw]
  rfl

/-- With the NOP word in ID and a bubble in EX there is no fetched word to place (40_pipeline.md R143). -/
theorem fetchAddressInv_of_empty {s : State} (hid : s.ifid.ins = 0x0000) (hex : s.idex.ctl = nopcw) :
    State.fetchAddressInv s :=
  ⟨fun h => absurd hid h, fun h => absurd hex h⟩

/-- Settles O39, by what IF and ID do in the cycle: only with nothing in the way does a word enter ID or EX. -/
theorem cycleKeepsFetchAddress : Obligations.CycleKeepsFetchAddress := by
  rintro p rst s hp ⟨hid, hex⟩
  cases rst with
  | true =>
    obtain ⟨hidex, hifid, -⟩ := cycle_of_reset p s
    exact fetchAddressInv_of_empty (by rw [hifid]) hidex
  | false =>
    cases hs : stall p false s with
    | true =>
      obtain ⟨hidex, hifid, hpc⟩ := cycle_of_stall hs
      rw [State.fetchAddressInv, hidex, hifid, hpc]
      exact ⟨hid, fun h => absurd rfl h⟩
    | false =>
      cases hj : CtlWord.j s.idex.ctl with
      | true =>
        obtain ⟨hidex, hifid, -⟩ := cycle_of_jump p hj
        exact fetchAddressInv_of_empty (by rw [hifid]) hidex
      | false =>
        obtain ⟨hidex, hifid, hpc⟩ := cycle_of_flow hj hs
        rw [State.fetchAddressInv, hidex, hifid, hpc, cycle_idex_pc]
        refine ⟨fun _ => rfl, fun h => ?_⟩
        have hins : s.ifid.ins ≠ 0x0000 := fun e => h (lookupCtl_nop hp _ (by rw [e]; rfl))
        rw [hid hins, add_one_add_one]

/-! ### A HLT in flight -/

/-- Only opcode 1 decodes to HLT (30_encoding.md R82). -/
theorem opcode_of_decode_hlt {w : Word} (h : decode w = .hlt) : opcode w = 1 := by
  unfold decode at h
  split at h
  case h_2 hop => exact BitVec.eq_of_toNat_eq hop
  all_goals cases h

/-- HLT's control word under `REFDT` (30_encoding.md R91). -/
theorem lookupCtl_hlt {p : Params} (hp : p.dt = refdt) (fl : Flags) {w : Word} (hw : decode w = .hlt) :
    lookupCtl p fl w = 0x600021 := by
  rw [lookupCtl, hp, refdt, extract_tableAddress, opcode_of_decode_hlt hw]
  rfl

/-- An instruction that uses neither operand is never held in ID (40_pipeline.md R136). -/
theorem stall_of_unused {p : Params} (rst : Bool) {s : State} (hl : CtlWord.leftUnused (idCtl p s) = true)
    (hr : CtlWord.rightUnused (idCtl p s) = true) : stall p rst s = false := by
  simp [stall, hazard, hl, hr]

/-- Settles O52: no operand of HLT holds it in ID, and from EX on its control word moves by one latch a cycle. -/
theorem hltReachesWriteBackFourCyclesAfterFetch : Obligations.HltReachesWriteBackFourCyclesAfterFetch := by
  intro p s hp hdecode hfetch hj hj'
  have hs : stall p false s = false := by simpa [fetches] using hfetch
  obtain ⟨-, hifid, -⟩ := cycle_of_flow hj hs
  have hctl : idCtl p (cycle p false s) = 0x600021 := by
    refine lookupCtl_hlt hp _ ?_
    rw [hifid]
    exact hdecode
  have hs' : stall p false (cycle p false s) = false :=
    stall_of_unused false (by rw [hctl]; rfl) (by rw [hctl]; rfl)
  obtain ⟨hidex, -, -⟩ := cycle_of_flow hj' hs'
  have hmemwb : (cycles p false 4 s).memwb.ctl = (cycle p false (cycle p false s)).idex.ctl := rfl
  have hpc : (cycles p false 4 s).memwb.pc = (cycle p false s).ifid.pc := rfl
  have hhalt : haltSignal (cycles p false 4 s) = true := by
    rw [haltSignal, hmemwb, hidex, hctl]
    rfl
  exact ⟨hhalt, by rw [hpc, hifid], hhalt⟩

/-! ### A stream of NOPs -/

/-- One more cycle at the end instead of at the start. -/
theorem cycles_succ_end (p : Params) (rst : Bool) (n : Nat) (s : State) :
    cycles p rst (n + 1) s = cycle p rst (cycles p rst n s) := by
  induction n generalizing s with
  | zero => rfl
  | succ n ih => exact ih (cycle p rst s)

/-- A pipeline with nothing but NOPs in it and nothing listed in the instruction memory. -/
structure OnlyNops (s : State) : Prop where
  imem : s.imem = []
  ifid : s.ifid.ins = 0x0000
  idex : CtlWord.w3 s.idex.ctl = true
  exmem : CtlWord.w3 s.exmem.ctl = true
  memwb : CtlWord.w3 s.memwb.ctl = true

theorem OnlyNops.reset : OnlyNops State.reset := ⟨rfl, rfl, rfl, rfl, rfl⟩

/-- With NOPs in every stage a cycle makes one fetch, counts, and does nothing else; the pipeline then holds NOPs again. -/
theorem cycle_of_onlyNops {s : State} (h : OnlyNops s) (p : Params) :
    OnlyNops (cycle p false s) ∧ (cycle p false s).regs = s.regs ∧ (cycle p false s).flags = s.flags ∧
      (cycle p false s).dmem = s.dmem ∧ (cycle p false s).pc = s.pc + 1 ∧
      (cycle p false s).calls = .fetch s.pc :: s.calls := by
  have hs : stall p false s = false := stall_of_w3 p false h.idex
  obtain ⟨hidex, hifid, hpc⟩ := cycle_of_flow (j_of_w3 h.idex) hs
  have hmem : memStage p s = (s.exmem.y, s) := memAccess_of_w3 p h.exmem _ _ s
  have hfetches : fetches p false s = true := by simp [fetches, hs]
  refine ⟨⟨?imem, ?ifid, ?idex, h.idex, h.exmem⟩, commitReg_of_w3 h.memwb _ _ _, exFlags_of_w3 h.idex, ?dmem, hpc, ?calls⟩
  case imem => rw [cycle_imem, h.imem]
  case ifid => rw [hifid, h.imem]; rfl
  case idex =>
    rw [hidex]
    exact lookupCtl_w3_of_nop p _ (by rw [h.ifid]; rfl)
  case dmem => rw [cycle_dmem, hmem]
  case calls => rw [cycle_calls, if_pos hfetches, hmem]

/-- Settles O51, by induction on the number of cycles with `OnlyNops` as the invariant. -/
theorem nopStreamOnlyAdvancesPC : Obligations.NopStreamOnlyAdvancesPC := by
  intro p n
  suffices h : OnlyNops (cycles p false n State.reset) ∧ (cycles p false n State.reset).regs = State.reset.regs ∧
      (cycles p false n State.reset).flags = State.reset.flags ∧ (cycles p false n State.reset).dmem = State.reset.dmem ∧
      (cycles p false n State.reset).pc = BitVec.ofNat 16 n ∧ (cycles p false n State.reset).cyc = n ∧
      (cycles p false n State.reset).calls = ((List.range n).map fun k => PortCall.fetch (BitVec.ofNat 16 k)).reverse from h.2
  induction n with
  | zero => exact ⟨OnlyNops.reset, rfl, rfl, rfl, rfl, rfl, rfl⟩
  | succ n ih =>
    obtain ⟨hnops, hregs, hflags, hdmem, hpc, hcyc, hcalls⟩ := ih
    obtain ⟨hnops', eregs, eflags, edmem, epc, ecalls⟩ := cycle_of_onlyNops hnops p
    rw [cycles_succ_end, cycle_cyc, eregs, eflags, edmem, epc, ecalls, hregs, hflags, hdmem, hpc, hcyc, hcalls]
    refine ⟨hnops', rfl, rfl, rfl, (BitVec.ofNat_add n 1).symm, rfl, ?_⟩
    rw [List.range_succ, List.map_append, List.reverse_append]
    rfl

end Sys2Proof.Machine
end

section
/-!
PROOFS. The generic step (spec 40_pipeline.md R146): its parts by name, what it comes to for each shape of control word, that under
`REFDT` it is every instruction's meaning, and what each instruction leaves unchanged.
-/

namespace Sys2Proof.Machine

/-! ### The parts of the generic step -/

/-- The store operand of an instruction of the instruction layer (40_pipeline.md R126, R146). -/
def insnStoreOp (p : Params) (w : Word) (s : State) : Word :=
  storeOperand (lookupCtl p s.flags w) (s.reg (fieldB w)) w s.pc

/-- The ALU of an instruction of the instruction layer (40_pipeline.md R127 to R129, R146). -/
def insnAlu (p : Params) (w : Word) (s : State) : AluOut :=
  aluStage (lookupCtl p s.flags w) (s.reg (fieldA w)) (rightOperand (lookupCtl p s.flags w) (s.reg (fieldB w)) w)

/-- The data access of an instruction of the instruction layer (40_pipeline.md R124, R146). -/
def insnMem (p : Params) (w : Word) (s : State) : Word × State :=
  memAccess p (lookupCtl p s.flags w) (insnAlu p w s).f (insnStoreOp p w s) s

/-- The generic step over its parts (40_pipeline.md R146). -/
theorem insnEffect_eq (p : Params) (w : Word) (s : State) :
    insnEffect p w s =
      { (insnMem p w s).2 with
        flags := if CtlWord.fi (lookupCtl p s.flags w) then s.flags else (insnAlu p w s).flags
        regs := commitReg (lookupCtl p s.flags w) (fieldC w)
          (if CtlWord.writeBackSrcFlag (lookupCtl p s.flags w) then insnStoreOp p w s else (insnMem p w s).1) s.regs
        pc := if CtlWord.j (lookupCtl p s.flags w) then
            (if CtlWord.jabs (lookupCtl p s.flags w) then (insnAlu p w s).f else s.pc + 2 + (insnAlu p w s).f)
          else s.pc + 1
        haltedOut := CtlWord.hlt (lookupCtl p s.flags w) } := rfl

/-- The state with the fetch recorded, on which `insnStep` works. -/
theorem insnStep_eq (p : Params) (s : State) :
    insnStep p s = insnEffect p (s.imem.read s.pc) (s.logCall (.fetch s.pc)) := rfl

/-- Settles O10: `step` fetches, decodes and runs `exec`. -/
theorem stepRunsDecodedInstruction : Obligations.StepRunsDecodedInstruction := by
  rintro s i rfl
  exact step_eq s

/-! ### Shapes of control words -/

/-- Neither a load nor a store. -/
abbrev CtlWord.NoAccess (cw : CtlWord) : Prop := CtlWord.memLoad cw = false ∧ CtlWord.memStore cw = false

/-- The flags stay, the run goes on, and the next instruction is the next word. -/
abbrev CtlWord.OnlyAdvances (cw : CtlWord) : Prop := CtlWord.fi cw = true ∧ CtlWord.j cw = false ∧ CtlWord.hlt cw = false

/-- No lane of a register is written. -/
abbrev CtlWord.NoLane (cw : CtlWord) : Prop := CtlWord.writesLo cw = false ∧ CtlWord.writesHi cw = false

/-- The ALU gives the flags and the value to commit, and nothing else happens. -/
abbrev CtlWord.AluOnly (cw : CtlWord) : Prop :=
  CtlWord.NoAccess cw ∧ CtlWord.fi cw = false ∧ CtlWord.j cw = false ∧ CtlWord.hlt cw = false ∧
    CtlWord.writeBackSrcFlag cw = false

/-- A jump that leaves flags and memory alone. -/
abbrev CtlWord.JumpOnly (cw : CtlWord) : Prop :=
  CtlWord.NoAccess cw ∧ CtlWord.fi cw = true ∧ CtlWord.j cw = true ∧ CtlWord.hlt cw = false

/-- A commit of a whole register (40_pipeline.md R122). -/
theorem commitReg_of_wben {cw : CtlWord} (h : CtlWord.wben cw = true) {c : RegIdx} {v : Word} {regs : Vector Word 8} :
    commitReg cw c v regs = writeReg regs c v :=
  commitReg_whole cw c v regs (by simp [CtlWord.writesLo, h]) (by simp [CtlWord.writesHi, h])

section
variable {p : Params} {w : Word} {s : State} {cw : CtlWord}

/-- Without a data access the generic step is four updates (40_pipeline.md R146). -/
theorem insnEffect_of_noAccess (hcw : lookupCtl p s.flags w = cw) (h : CtlWord.NoAccess cw) :
    insnEffect p w s =
      { s with
        flags := if CtlWord.fi cw then s.flags else (insnAlu p w s).flags
        regs := commitReg cw (fieldC w)
          (if CtlWord.writeBackSrcFlag cw then insnStoreOp p w s else (insnAlu p w s).f) s.regs
        pc := if CtlWord.j cw then (if CtlWord.jabs cw then (insnAlu p w s).f else s.pc + 2 + (insnAlu p w s).f) else s.pc + 1
        haltedOut := CtlWord.hlt cw } := by
  have hmem : insnMem p w s = ((insnAlu p w s).f, s) := by
    rw [insnMem, hcw, memAccess_none p cw _ _ s h.1 h.2]
  rw [insnEffect_eq, hmem, hcw]

/-- An ALU instruction with a destination (41_alu_register.md R180). -/
theorem insnEffect_aluWrite {r : AluOut} (hcw : lookupCtl p s.flags w = cw)
    (h : CtlWord.AluOnly cw ∧ CtlWord.wben cw = true)
    (hr : aluStage cw (s.reg (fieldA w)) (rightOperand cw (s.reg (fieldB w)) w) = r) :
    insnEffect p w s = s.aluWrite (fieldC w) r := by
  obtain ⟨⟨haccess, hfi, hj, hhlt, hwb⟩, hwben⟩ := h
  have halu : insnAlu p w s = r := by rw [insnAlu, hcw, hr]
  rw [insnEffect_of_noAccess hcw haccess, State.aluWrite_eq, commitReg_of_wben hwben]
  simp [hfi, hj, hhlt, hwb, halu]

/-- ADC and SBC: the table resolves the Carry flag to a control word for each of its values (30_encoding.md R93). -/
theorem insnEffect_aluWrite_carry {set clear : CtlWord} {r : Bool → AluOut}
    (hcw : lookupCtl p s.flags w = if s.flags.c = true then set else clear)
    (hset : CtlWord.AluOnly set ∧ CtlWord.wben set = true) (hclear : CtlWord.AluOnly clear ∧ CtlWord.wben clear = true)
    (hr : aluStage set (s.reg (fieldA w)) (rightOperand set (s.reg (fieldB w)) w) = r true)
    (hr' : aluStage clear (s.reg (fieldA w)) (rightOperand clear (s.reg (fieldB w)) w) = r false) :
    insnEffect p w s = s.aluWrite (fieldC w) (r s.flags.c) := by
  cases hc : s.flags.c with
  | true => exact insnEffect_aluWrite (hcw.trans (if_pos hc)) hset hr
  | false => exact insnEffect_aluWrite (hcw.trans (if_neg (by simp [hc]))) hclear hr'

/-- A compare (41_alu_register.md R181). -/
theorem insnEffect_aluCompare {r : AluOut} (hcw : lookupCtl p s.flags w = cw)
    (h : CtlWord.AluOnly cw ∧ CtlWord.NoLane cw)
    (hr : aluStage cw (s.reg (fieldA w)) (rightOperand cw (s.reg (fieldB w)) w) = r) :
    insnEffect p w s = s.aluCompare r := by
  obtain ⟨⟨haccess, hfi, hj, hhlt, -⟩, hlo, hhi⟩ := h
  have halu : insnAlu p w s = r := by rw [insnAlu, hcw, hr]
  rw [insnEffect_of_noAccess hcw haccess, State.aluCompare_eq, commitReg_disabled cw _ _ _ hlo hhi]
  simp [hfi, hj, hhlt, halu]

/-- A control word that changes nothing leaves `pc + 1` and its halt signal (46_system.md R260, R261). -/
theorem insnEffect_of_noLane (hcw : lookupCtl p s.flags w = cw)
    (h : CtlWord.NoAccess cw ∧ CtlWord.NoLane cw ∧ CtlWord.fi cw = true ∧ CtlWord.j cw = false) :
    insnEffect p w s = { s.advance with haltedOut := CtlWord.hlt cw } := by
  obtain ⟨haccess, ⟨hlo, hhi⟩, hfi, hj⟩ := h
  rw [insnEffect_of_noAccess hcw haccess, commitReg_disabled cw _ _ _ hlo hhi]
  simp [hfi, hj, State.advance, State.continueAt]

/-- A move commits the enabled lanes of the store operand (44_immediate_moves.md R230, R231). -/
theorem insnEffect_move {v : Word} (hcw : lookupCtl p s.flags w = cw)
    (h : CtlWord.NoAccess cw ∧ CtlWord.OnlyAdvances cw ∧ CtlWord.writeBackSrcFlag cw = true)
    (hv : mergeLanes (CtlWord.writesLo cw) (CtlWord.writesHi cw) (storeOperand cw (s.reg (fieldB w)) w s.pc)
      (s.reg (fieldC w)) = v) :
    insnEffect p w s = (s.setReg (fieldC w) v).advance := by
  obtain ⟨haccess, ⟨hfi, hj, hhlt⟩, hwb⟩ := h
  have hregs : commitReg cw (fieldC w) (insnStoreOp p w s) s.regs = writeReg s.regs (fieldC w) v := by
    rw [insnStoreOp, hcw, ← hv]
    rfl
  rw [insnEffect_of_noAccess hcw haccess]
  simp [hfi, hj, hhlt, hwb, hregs, State.advance, State.continueAt, State.setReg]

/-- A jump that writes no register (45_control_transfer.md R241, R242). -/
theorem insnEffect_jump {target : Word} (hcw : lookupCtl p s.flags w = cw) (h : CtlWord.JumpOnly cw ∧ CtlWord.NoLane cw)
    (htarget : (if CtlWord.jabs cw then (insnAlu p w s).f else s.pc + 2 + (insnAlu p w s).f) = target) :
    insnEffect p w s = s.continueAt target := by
  obtain ⟨⟨haccess, hfi, hj, hhlt⟩, hlo, hhi⟩ := h
  rw [insnEffect_of_noAccess hcw haccess, commitReg_disabled cw _ _ _ hlo hhi, htarget]
  simp [hfi, hj, hhlt, State.continueAt]

/-- A jump that commits the store operand, the link (45_control_transfer.md R243). -/
theorem insnEffect_jumpAndLink {link target : Word} (hcw : lookupCtl p s.flags w = cw)
    (h : CtlWord.JumpOnly cw ∧ CtlWord.writeBackSrcFlag cw = true ∧ CtlWord.wben cw = true)
    (hlink : storeOperand cw (s.reg (fieldB w)) w s.pc = link)
    (htarget : (if CtlWord.jabs cw then (insnAlu p w s).f else s.pc + 2 + (insnAlu p w s).f) = target) :
    insnEffect p w s = (s.setReg (fieldC w) link).continueAt target := by
  obtain ⟨⟨haccess, hfi, hj, hhlt⟩, hwb, hwben⟩ := h
  have hsop : insnStoreOp p w s = link := by rw [insnStoreOp, hcw, hlink]
  rw [insnEffect_of_noAccess hcw haccess, commitReg_of_wben hwben, htarget, hsop]
  simp [hfi, hj, hhlt, hwb, State.continueAt, State.setReg]

/-- A load commits the environment's word (43_load_store.md R220). -/
theorem insnEffect_load {y : Word} (hcw : lookupCtl p s.flags w = cw)
    (h : CtlWord.OnlyAdvances cw ∧ CtlWord.writeBackSrcFlag cw = false ∧ CtlWord.wben cw = true)
    (hload : CtlWord.memLoad cw = true) (hstore : CtlWord.memStore cw = false) (hy : (insnAlu p w s).f = y) :
    insnEffect p w s = ((s.dataLoad p y).2.setReg (fieldC w) (s.dataLoad p y).1).advance := by
  obtain ⟨⟨hfi, hj, hhlt⟩, hwb, hwben⟩ := h
  have hmem : insnMem p w s = s.dataLoad p y := by
    rw [insnMem, hcw, memAccess_load p cw _ _ s hload hstore, hy]
  rw [insnEffect_eq, hmem, hcw, commitReg_of_wben hwben]
  simp [hfi, hj, hhlt, hwb, State.advance, State.continueAt, State.setReg, State.logCall]

/-- A store hands the store operand to the environment (43_load_store.md R221). -/
theorem insnEffect_store {y v : Word} (hcw : lookupCtl p s.flags w = cw) (h : CtlWord.OnlyAdvances cw ∧ CtlWord.NoLane cw)
    (hload : CtlWord.memLoad cw = false) (hstore : CtlWord.memStore cw = true) (hy : (insnAlu p w s).f = y)
    (hv : storeOperand cw (s.reg (fieldB w)) w s.pc = v) : insnEffect p w s = (s.dataStore p y v).advance := by
  obtain ⟨⟨hfi, hj, hhlt⟩, hlo, hhi⟩ := h
  have hmem : insnMem p w s = (y, s.dataStore p y v) := by
    rw [insnMem, insnStoreOp, hcw, memAccess_store p cw _ _ s hload hstore, hy, hv]
  rw [insnEffect_eq, hmem, hcw, commitReg_disabled cw _ _ _ hlo hhi]
  simp [hfi, hj, hhlt, State.advance, State.continueAt, State.dataStore, State.logCall]

/-- The ALU as an adder of what its gates let through (40_pipeline.md R127, R128). -/
theorem insnAlu_f_of_add (hcw : lookupCtl p s.flags w = cw) (h : CtlWord.aluOp cw = 3 ∧ CtlWord.c0 cw = false) :
    (insnAlu p w s).f =
      leftInput cw (s.reg (fieldA w)) + rightInput cw (rightOperand cw (s.reg (fieldB w)) w) := by
  have hadd : insnAlu p w s =
      add3 (leftInput cw (s.reg (fieldA w))) (rightInput cw (rightOperand cw (s.reg (fieldB w)) w)) false := by
    rw [insnAlu, hcw, aluStage, h.1, h.2]
    rfl
  rw [hadd, add3_f]
  exact BitVec.add_zero _

/-- JMP and a taken branch: the ALU passes the displacement (45_control_transfer.md R240, 30_encoding.md R91). -/
theorem insnEffect_of_jumpcw (hcw : lookupCtl p s.flags w = jumpcw) :
    insnEffect p w s = s.continueAt (relativeTarget s.pc (fieldImm11 w)) := by
  refine insnEffect_jump hcw (by decide) ?_
  have hleft : leftInput jumpcw (s.reg (fieldA w)) = 0x0000 := rfl
  have hright : rightInput jumpcw (rightOperand jumpcw (s.reg (fieldB w)) w) = sext11 (fieldImm11 w) := rfl
  rw [insnAlu_f_of_add hcw (by decide), hleft, hright, zero_add]
  rfl

/-- A conditional branch is a jump to the relative target, or nothing (45_control_transfer.md R244 to R249). -/
theorem insnEffect_branch {taken : Bool} (hcw : lookupCtl p s.flags w = branchcw taken) :
    insnEffect p w s = s.branch taken (fieldImm11 w) := by
  cases taken with
  | false => exact insnEffect_of_noLane (cw := nopcw) hcw (by decide)
  | true => exact insnEffect_of_jumpcw hcw

end

/-! ### Every meaning is the generic step -/

/-- Every word's meaning is the generic step with the control word of its row of `REFDT` (40_pipeline.md R146, 30_encoding.md R91). -/
theorem exec_decode (w : Word) (s : State) : exec (decode w) s = .next (insnEffect Params.ref w s) := by
  have hcw := refdt_lookup s.flags w
  simp only [refdt, extract_tableAddress, addressFlags_tableAddress] at hcw
  have hlt : (opcode w).toNat < 32 := (opcode w).isLt
  unfold decode
  generalize (opcode w).toNat = n at *
  -- one arm of `decode` for each opcode: the arm `h_k` is opcode `k - 1`
  split
  case h_32 =>
    obtain rfl : n = 31 := by grind only
    exact congrArg Host.Outcome.next
      (insnEffect_aluWrite_carry (r := add3 _ _) hcw (by decide) (by decide) (by rfl) (by rfl)).symm
  all_goals simp only at hcw
  case h_31 =>
    exact congrArg Host.Outcome.next
      (insnEffect_aluWrite_carry (r := add3 _ _) hcw (by decide) (by decide) (by rfl) (by rfl)).symm
  case h_8 | h_9 | h_10 | h_11 | h_12 | h_13 | h_15 | h_16 | h_17 | h_18 | h_19 =>
    exact congrArg Host.Outcome.next (insnEffect_aluWrite hcw (by decide) (by rfl)).symm
  case h_7 | h_14 => exact congrArg Host.Outcome.next (insnEffect_aluCompare hcw (by decide) (by rfl)).symm
  case h_1 | h_2 | h_20 | h_24 => exact congrArg Host.Outcome.next (insnEffect_of_noLane hcw (by decide)).symm
  case h_3 =>
    exact congrArg Host.Outcome.next
      (insnEffect_load hcw (by decide) rfl rfl (insnAlu_f_of_add hcw (by decide))).symm
  case h_4 =>
    exact congrArg Host.Outcome.next
      (insnEffect_store hcw (by decide) rfl rfl (insnAlu_f_of_add hcw (by decide)) rfl).symm
  case h_5 => exact congrArg Host.Outcome.next (insnEffect_move hcw (by decide) (mergeLanes_both _ _)).symm
  case h_6 => exact congrArg Host.Outcome.next (insnEffect_move hcw (by decide) (by rfl)).symm
  case h_21 => exact congrArg Host.Outcome.next (insnEffect_of_jumpcw hcw).symm
  case h_22 =>
    exact congrArg Host.Outcome.next (insnEffect_jump hcw (by decide) (insnAlu_f_of_add hcw (by decide))).symm
  case h_23 =>
    exact congrArg Host.Outcome.next
      (insnEffect_jumpAndLink hcw (by decide) rfl (insnAlu_f_of_add hcw (by decide))).symm
  case h_25 | h_26 | h_27 | h_28 | h_29 | h_30 => exact congrArg Host.Outcome.next (insnEffect_branch hcw).symm

/-- Settles O33: `exec_decode`, and `step` is `exec` of the decoded word. -/
theorem meaningsAreTheGenericStep : Obligations.MeaningsAreTheGenericStep :=
  ⟨exec_decode, fun s => exec_decode (s.imem.read s.pc) (s.logCall (.fetch s.pc))⟩

/-! ### What each instruction leaves unchanged -/

/-- The frame that its destination, its use of the flags and its store address give an instruction. -/
def KeepsFrame (i : Instr) (s t : State) : Prop :=
  (∀ r, destination i ≠ some r → t.reg r = s.reg r) ∧ (writesFlags i = false → t.flags = s.flags) ∧
    (∀ a, storeAddress s i ≠ some a → t.dmem.read a = s.dmem.read a) ∧ PipelineUntouched s t ∧
    ∃ l, t.calls = l ++ s.calls ∧ l.length ≤ 1 ∧ ∀ c ∈ l, PortCall.isData c = true

section
variable {i : Instr} {s : State}

/-- A register write shows in the destination only. -/
theorem setReg_reg_of_destination {c : RegIdx} (hi : destination i = some c) (v : Word) (t : State) {r : RegIdx}
    (hr : destination i ≠ some r) : (t.setReg c v).reg r = t.reg r :=
  State.setReg_reg_ne t c r v fun e => hr (by rw [hi, e])

/-- An instruction without destination that changes `pc` and the halt output only. -/
theorem keepsFrame_halt (target : Word) (halt : Bool) :
    KeepsFrame i s { s.continueAt target with haltedOut := halt } :=
  ⟨fun _ _ => rfl, fun _ => rfl, fun _ _ => rfl, ⟨rfl, rfl, rfl, rfl, rfl, fun _ => rfl⟩, [], rfl, Nat.zero_le 1, by simp⟩

theorem keepsFrame_continueAt (target : Word) : KeepsFrame i s (s.continueAt target) := keepsFrame_halt target false

theorem keepsFrame_branch (taken : Bool) (imm : BitVec 11) : KeepsFrame i s (s.branch taken imm) := by
  cases taken with
  | false => exact keepsFrame_continueAt _
  | true => exact keepsFrame_continueAt _

/-- An instruction that writes its destination and goes on. -/
theorem keepsFrame_setReg {c : RegIdx} (hi : destination i = some c) (v target : Word) :
    KeepsFrame i s ((s.setReg c v).continueAt target) :=
  ⟨fun _ hr => setReg_reg_of_destination hi v s hr, fun _ => rfl, fun _ _ => rfl,
    ⟨rfl, rfl, rfl, rfl, rfl, fun _ => rfl⟩, [], rfl, Nat.zero_le 1, by simp⟩

theorem keepsFrame_aluWrite {c : RegIdx} (hi : destination i = some c) (hflags : writesFlags i = true) (r : AluOut) :
    KeepsFrame i s (s.aluWrite c r) :=
  ⟨fun _ hr => setReg_reg_of_destination hi r.f s hr, fun h => absurd hflags (by simp [h]), fun _ _ => rfl,
    ⟨rfl, rfl, rfl, rfl, rfl, fun _ => rfl⟩, [], rfl, Nat.zero_le 1, by simp⟩

theorem keepsFrame_aluCompare (hflags : writesFlags i = true) (r : AluOut) : KeepsFrame i s (s.aluCompare r) :=
  ⟨fun _ _ => rfl, fun h => absurd hflags (by simp [h]), fun _ _ => rfl,
    ⟨rfl, rfl, rfl, rfl, rfl, fun _ => rfl⟩, [], rfl, Nat.zero_le 1, by simp⟩

/-- LOAD makes one call of the data port. -/
theorem keepsFrame_load {c : RegIdx} (hi : destination i = some c) (p : Params) (y v : Word) :
    KeepsFrame i s (((s.dataLoad p y).2.setReg c v).advance) :=
  ⟨fun _ hr => setReg_reg_of_destination hi v _ hr, fun _ => rfl, fun _ _ => rfl,
    ⟨rfl, rfl, rfl, rfl, rfl, fun _ => rfl⟩, [_], rfl, le_rfl, by simp [PortCall.isData]⟩

/-- STORE makes one call of the data port and writes the word at its address (plain memory, D27). -/
theorem keepsFrame_store {y : Word} (hi : storeAddress s i = some y) (v : Word) :
    KeepsFrame i s ((s.dataStore Params.ref y v).advance) :=
  ⟨fun _ _ => rfl, fun _ => rfl, fun a ha => Memory.read_write_ne s.dmem y a v fun e => ha (by rw [hi, e]),
    ⟨rfl, rfl, rfl, rfl, rfl, fun _ => rfl⟩, [_], rfl, le_rfl, by simp [PortCall.isData]⟩

end

/-- Settles O28, by the operation each meaning is written over. -/
theorem everyInstructionKeepsItsFrame : Obligations.EveryInstructionKeepsItsFrame := by
  intro i s t h
  suffices hframe : KeepsFrame i s t from hframe
  cases i <;> cases h
  case add | sub | and | or | xor | not | adc | sbc => exact keepsFrame_aluWrite rfl rfl _
  case addi | subi | andi | ori | xori => exact keepsFrame_aluWrite rfl rfl _
  case cmp | cmpi => exact keepsFrame_aluCompare rfl _
  case li | lui | jalr => exact keepsFrame_setReg rfl _ _
  case load => exact keepsFrame_load rfl _ _ _
  case store => exact keepsFrame_store rfl _
  case nop | unused19 | unused23 | jmp | jr => exact keepsFrame_continueAt _
  case hlt => exact keepsFrame_halt _ true
  case beq | bne | blt | bgt | bltu | bgtu => exact keepsFrame_branch _ _

end Sys2Proof.Machine
end

section
/-!
PROOFS. Sequential equivalence (spec 40_pipeline.md R144): a simulation of the instruction layer by the pipeline. At the start of every
cycle the instructions in WB, MEM and EX, once completed, give the registers, flags, data memory and data-port calls of the
instruction-layer machine (`Drains`), and that machine's next instruction is in ID or about to be fetched (`Awaits`).
-/

namespace Sys2Proof.Machine

/-! ### The generic step -/

theorem insnEffect_pc (p : Params) (w : Word) (s : State) :
    (insnEffect p w s).pc =
      if CtlWord.j (lookupCtl p s.flags w) then
        (if CtlWord.jabs (lookupCtl p s.flags w) then (insnAlu p w s).f else s.pc + 2 + (insnAlu p w s).f)
      else s.pc + 1 := rfl

/-- The instruction memory stays as it is (20_memory.md R52). -/
theorem insnStep_imem (p : Params) (s : State) : (insnStep p s).imem = s.imem := by
  obtain ⟨-, -, -, -, -, himem⟩ := insnEffect_frame p s.fetch.1 s.fetch.2
  exact himem

theorem insnSteps_imem (p : Params) (n : Nat) (s : State) : (insnSteps p n s).imem = s.imem := by
  induction n with
  | zero => rfl
  | succ n ih => rw [insnSteps_succ_end, insnStep_imem, ih]

/-! ### Operands that a control word does not read -/

/-- The word of a squashed slot has opcode 0 (40_pipeline.md R139). -/
theorem opcode_nopWord : opcode 0x0000 = 0 := rfl

theorem rightOperand_congr {cw : CtlWord} {b b' : Word} (w : Word) (h : CtlWord.selRightOp cw = 0 → b = b') :
    rightOperand cw b w = rightOperand cw b' w := by
  unfold rightOperand
  split
  case h_1 hsel => exact h (BitVec.eq_of_toNat_eq hsel)
  all_goals rfl

theorem storeOperand_congr {cw : CtlWord} {b b' : Word} (w pc : Word) (h : CtlWord.selStoreOp cw = 0 → b = b') :
    storeOperand cw b w pc = storeOperand cw b' w pc := by
  unfold storeOperand
  split
  case h_1 hsel => exact h (BitVec.eq_of_toNat_eq hsel)
  all_goals rfl

/-- A commit reads its value only when a lane is enabled (40_pipeline.md R122). -/
theorem commitReg_congr_val {cw : CtlWord} (c : RegIdx) {v v' : Word} (regs : Vector Word 8)
    (h : CtlWord.writesLo cw = true ∨ CtlWord.writesHi cw = true → v = v') : commitReg cw c v regs = commitReg cw c v' regs := by
  by_cases hen : CtlWord.writesLo cw = true ∨ CtlWord.writesHi cw = true
  · rw [h hen]
  · simp only [not_or, Bool.not_eq_true] at hen
    rw [commitReg_disabled cw c v regs hen.1 hen.2, commitReg_disabled cw c v' regs hen.1 hen.2]

/-- The hints stand only where the operand reaches neither the ALU, nor a store, nor a commit (30_encoding.md R90 W4). -/
theorem lookupCtl_w4 (p : Params) (fl : Flags) (w : Word) : CtlWord.w4 (lookupCtl p fl w) = true := by
  obtain ⟨-, -, -, h4⟩ := (entryWellFormed_iff _ _).mp (entryWellFormed_of_table p.wellFormed (tableAddress fl (opcode w)))
  exact h4

/-- Operand values that agree where the hints call them used give the same ALU output (30_encoding.md R90 W4). -/
theorem aluStage_congr_of_hints {cw : CtlWord} {a a' b b' : Word} (w : Word) (h4 : CtlWord.w4 cw = true)
    (ha : CtlWord.leftUnused cw = false → a = a') (hb : CtlWord.rightUnused cw = false → b = b') :
    aluStage cw a (rightOperand cw b w) = aluStage cw a' (rightOperand cw b' w) := by
  obtain ⟨hleft, hright⟩ := (w4_iff cw).mp h4
  refine aluStage_congr (fun hrs0 => ha ?_) fun hrs1 => rightOperand_congr w fun hsel => hb ?_
  · by_contra hu
    rw [hleft (by simpa using hu)] at hrs0
    cases hrs0
  · by_contra hu
    exact (hright (by simpa using hu)).1 ⟨hsel, hrs1⟩

/-- An enabled lane is enabled by one of the three write enables (40_pipeline.md R122). -/
theorem writeEnable_of_lanes {cw : CtlWord} (h : CtlWord.writesLo cw = true ∨ CtlWord.writesHi cw = true) :
    CtlWord.wrl cw = true ∨ CtlWord.wrh cw = true ∨ CtlWord.wben cw = true := by
  obtain h | h := h
  · obtain h | h := (Bool.or_eq_true _ _).mp h
    · exact .inr (.inr h)
    · exact .inl h
  · obtain h | h := (Bool.or_eq_true _ _).mp h
    · exact .inr (.inr h)
    · exact .inr (.inl h)

/-- The same of the store operand, where it is stored or committed (30_encoding.md R90 W4). -/
theorem storeOperand_congr_of_hints {cw : CtlWord} {b b' : Word} (w pc : Word) (h4 : CtlWord.w4 cw = true)
    (hb : CtlWord.rightUnused cw = false → b = b')
    (hused : CtlWord.memStore cw = true ∨
      (CtlWord.writeBackSrcFlag cw = true ∧ (CtlWord.writesLo cw = true ∨ CtlWord.writesHi cw = true))) :
    storeOperand cw b w pc = storeOperand cw b' w pc := by
  obtain ⟨-, hright⟩ := (w4_iff cw).mp h4
  refine storeOperand_congr w pc fun hsel => hb ?_
  by_contra hu
  exact (hright (by simpa using hu)).2 ⟨hsel, hused.imp_right fun ⟨hwb, hlanes⟩ => ⟨hwb, writeEnable_of_lanes hlanes⟩⟩

/-- Of the state an access reads the data memory and the data-port calls (40_pipeline.md R124). -/
theorem memAccess_congr_dataCalls (p : Params) (cw : CtlWord) (y sop : Word) {s t : State} (hdmem : s.dmem = t.dmem)
    (hcalls : dataCalls s.calls = dataCalls t.calls) :
    (memAccess p cw y sop s).1 = (memAccess p cw y sop t).1 ∧
      (memAccess p cw y sop s).2.dmem = (memAccess p cw y sop t).2.dmem ∧
      dataCalls (memAccess p cw y sop s).2.calls = dataCalls (memAccess p cw y sop t).2.calls := by
  unfold memAccess
  cases CtlWord.memLoad cw <;> cases CtlWord.memStore cw <;> simp [hdmem, hcalls]

/-! ### The state that the instructions in flight complete to -/

/-- What EX gives is what MEM works on in the next cycle (40_pipeline.md R124, R131). -/
theorem memStage_cycle (p : Params) (rst : Bool) (s : State) :
    memStage p (cycle p rst s) = memAccess p s.idex.ctl (exAlu s).f (exStoreOp s) (cycle p rst s) := rfl

/-- The instructions in WB, MEM and EX, completed in order, give the registers, flags, data memory and data-port calls of `u`. Two cycles
on, the instruction in EX is in WB, and all three have made their accesses. -/
structure Drains (p : Params) (s u : State) : Prop where
  regs : committedRegs (cycle p false (cycle p false s)) = u.regs
  flags : exFlags s = u.flags
  dmem : (cycle p false (cycle p false s)).dmem = u.dmem
  calls : dataCalls (cycle p false (cycle p false s)).calls = dataCalls u.calls
  imem : s.imem = u.imem

/-- A register read in ID without hazard is the completed one (40_pipeline.md R135). -/
theorem Drains.idRead_eq {p : Params} {s u : State} (h : Drains p s u) {r : RegIdx} (hr : regHazard s r = false) :
    idRead p s r = u.reg r := by
  rw [forwardingReadsProgramOrderValue p s r hr, State.reg, ← h.regs]
  rfl

/-- When ID sends a control word without effect, what is in flight completes to the same. -/
theorem Drains.cycle_of_w3 {p : Params} {s u : State} (h : Drains p s u)
    (hw3 : CtlWord.w3 (cycle p false s).idex.ctl = true) : Drains p (cycle p false s) u where
  regs := (commitReg_of_w3 hw3 _ _ _).trans h.regs
  flags := (exFlags_of_w3 hw3).trans h.flags
  dmem := by
    rw [cycle_dmem, memStage_cycle, memAccess_of_w3 p hw3]
    exact h.dmem
  calls := by
    rw [cycle_dataCalls, memStage_cycle, memAccess_of_w3 p hw3]
    exact h.calls
  imem := (cycle_imem p false s).trans h.imem

/-- Control words without effect in all three stages complete to the state as it is. -/
theorem Drains.of_w3 (p : Params) {s : State} (hidex : CtlWord.w3 s.idex.ctl = true) (hexmem : CtlWord.w3 s.exmem.ctl = true)
    (hmemwb : CtlWord.w3 s.memwb.ctl = true) : Drains p s s where
  regs := (commitReg_of_w3 hidex _ _ _).trans ((commitReg_of_w3 hexmem _ _ _).trans (commitReg_of_w3 hmemwb _ _ _))
  flags := exFlags_of_w3 hidex
  dmem := by rw [cycle_dmem, memStage_cycle, memAccess_of_w3 p hidex, cycle_dmem, memStage, memAccess_of_w3 p hexmem]
  calls := by
    rw [cycle_dataCalls, memStage_cycle, memAccess_of_w3 p hidex, cycle_dataCalls, memStage, memAccess_of_w3 p hexmem]
  imem := rfl

/-- EX's latch holds the next instruction of `u` with its control word and its operands, as far as the hints call them used. -/
structure Executes (p : Params) (x : IDEX) (u : State) : Prop where
  ctl : x.ctl = lookupCtl p u.flags (u.imem.read u.pc)
  ins : x.ins = u.imem.read u.pc
  pc : x.pc = u.pc
  left : CtlWord.leftUnused x.ctl = false → x.a = u.reg (fieldA x.ins)
  right : CtlWord.rightUnused x.ctl = false → x.b = u.reg (fieldB x.ins)

theorem Executes.w4 {p : Params} {x : IDEX} {u : State} (h : Executes p x u) : CtlWord.w4 x.ctl = true := by
  rw [h.ctl]
  exact lookupCtl_w4 p _ _

/-- EX computes what the instruction-layer step does. -/
theorem Executes.alu {p : Params} {s u : State} (h : Executes p s.idex u) :
    exAlu s = insnAlu p (u.imem.read u.pc) (u.logCall (.fetch u.pc)) := by
  rw [exAlu, aluStage_congr_of_hints _ h.w4 h.left h.right, h.ctl, h.ins]
  rfl

/-- EX selects the store operand of the instruction-layer step, where it is used. -/
theorem Executes.storeOp {p : Params} {s u : State} (h : Executes p s.idex u)
    (hused : CtlWord.memStore s.idex.ctl = true ∨
      (CtlWord.writeBackSrcFlag s.idex.ctl = true ∧ (CtlWord.writesLo s.idex.ctl = true ∨ CtlWord.writesHi s.idex.ctl = true))) :
    exStoreOp s = insnStoreOp p (u.imem.read u.pc) (u.logCall (.fetch u.pc)) := by
  rw [exStoreOp, storeOperand_congr_of_hints _ _ h.w4 h.right hused, h.ctl, h.ins, h.pc]
  rfl

/-- When ID sends the next instruction, what is then in flight completes to the state after that instruction. -/
theorem Drains.cycle_of_executes {p : Params} {s u : State} (h : Drains p s u)
    (hex : Executes p (cycle p false s).idex u) : Drains p (cycle p false s) (insnStep p u) := by
  obtain ⟨hword, hdmem, hcalls⟩ := memAccess_congr_dataCalls p (cycle p false s).idex.ctl (exAlu (cycle p false s)).f
    (exStoreOp (cycle p false s)) (t := u.logCall (.fetch u.pc)) h.dmem h.calls
  have hmem : memAccess p (cycle p false s).idex.ctl (exAlu (cycle p false s)).f (exStoreOp (cycle p false s))
      (u.logCall (.fetch u.pc)) = insnMem p (u.imem.read u.pc) (u.logCall (.fetch u.pc)) := by
    rw [memAccess_congr_sop p _ _ fun hst => hex.storeOp (.inl hst), hex.alu, hex.ctl]
    rfl
  rw [hmem] at hword hdmem hcalls
  refine ⟨?regs, ?flags, ?dmem, ?calls, ?imem⟩
  case regs =>
    calc committedRegs (cycle p false (cycle p false (cycle p false s)))
        = commitReg (cycle p false s).idex.ctl (fieldC (cycle p false s).idex.ins)
            (if CtlWord.writeBackSrcFlag (cycle p false s).idex.ctl then exStoreOp (cycle p false s)
              else (memStage p (cycle p false (cycle p false s))).1)
            (committedRegs (cycle p false (cycle p false s))) := rfl
      _ = commitReg (cycle p false s).idex.ctl (fieldC (cycle p false s).idex.ins)
            (if CtlWord.writeBackSrcFlag (cycle p false s).idex.ctl then
                insnStoreOp p (u.imem.read u.pc) (u.logCall (.fetch u.pc))
              else (insnMem p (u.imem.read u.pc) (u.logCall (.fetch u.pc))).1) u.regs := by
          rw [h.regs]
          refine commitReg_congr_val _ _ fun hlanes => ?_
          split
          · next hwb => exact hex.storeOp (.inr ⟨hwb, hlanes⟩)
          · exact hword
      _ = (insnStep p u).regs := by
          rw [hex.ctl, hex.ins, insnStep_eq, insnEffect_eq]
          rfl
  case flags =>
    have hflags : (cycle p false s).flags = u.flags := h.flags
    rw [exFlags, hflags, hex.alu, hex.ctl, insnStep_eq, insnEffect_eq]
    rfl
  case dmem => exact (cycle_dmem p false _).trans hdmem
  case calls => exact (cycle_dataCalls p false _).trans hcalls
  case imem => rw [cycle_imem, h.imem, insnStep_imem]

/-! ### Where the next instruction is -/

/-- The next instruction of `u` is in ID, nothing squashes it, and IF fetches the word behind it. -/
structure InDecode (s u : State) : Prop where
  noJump : CtlWord.j s.idex.ctl = false
  ifid : s.ifid = ⟨u.imem.read u.pc, u.pc⟩
  pc : s.pc = u.pc + 1

/-- The next instruction of `u` is in ID, or it is fetched in this cycle behind a NOP, or the jump in EX goes to it. -/
inductive Awaits (s u : State) : Prop
  | inDecode (h : InDecode s u)
  | inFetch (hex : CtlWord.w3 s.idex.ctl = true) (hid : opcode s.ifid.ins = 0) (hpc : s.pc = u.pc)
  | jumpTarget (hj : CtlWord.j s.idex.ctl = true)
      (hpc : (if CtlWord.jabs s.idex.ctl then (exAlu s).f else s.pc + (exAlu s).f) = u.pc)

/-- The next instruction of `u` leaves ID in this cycle. -/
structure Issues (p : Params) (s u : State) : Prop where
  drains : Drains p s u
  inDecode : InDecode s u
  noStall : stall p false s = false

/-- With no stall each operand that the hints call used is free of hazard (40_pipeline.md R136). -/
theorem regHazard_of_no_stall {p : Params} {s : State} (hj : CtlWord.j s.idex.ctl = false) (hs : stall p false s = false) :
    (CtlWord.leftUnused (idCtl p s) = false → regHazard s (fieldA s.ifid.ins) = false) ∧
    (CtlWord.rightUnused (idCtl p s) = false → regHazard s (fieldB s.ifid.ins) = false) := by
  have hhaz : ¬hazard p s = true := fun h => by
    rw [(stall_iff p false s).mpr ⟨h, hj, rfl⟩] at hs
    cases hs
  rw [hazard_iff, not_or] at hhaz
  simpa using hhaz

/-- The issued instruction is in EX in the next cycle, with the operands of the instruction layer. -/
theorem Issues.executes {p : Params} {s u : State} (h : Issues p s u) : Executes p (cycle p false s).idex u := by
  obtain ⟨hidex, -, -⟩ := cycle_of_flow h.inDecode.noJump h.noStall
  obtain ⟨hleft, hright⟩ := regHazard_of_no_stall h.inDecode.noJump h.noStall
  refine ⟨?ctl, ?ins, ?pc, fun hu => ?left, fun hu => ?right⟩
  case ctl => rw [hidex, idCtl, h.drains.flags, h.inDecode.ifid]
  case ins => rw [cycle_idex_ins, h.inDecode.ifid]
  case pc => rw [cycle_idex_pc, h.inDecode.ifid]
  case left => exact h.drains.idRead_eq (hleft (by rwa [hidex] at hu))
  case right => exact h.drains.idRead_eq (hright (by rwa [hidex] at hu))

/-- Behind the issued instruction the next one is in ID, or it is the target of the jump (40_pipeline.md R139, R143). -/
theorem Issues.awaits {p : Params} {s u : State} (h : Issues p s u) : Awaits (cycle p false s) (insnStep p u) := by
  have hex := h.executes
  obtain ⟨-, hifid, hpc⟩ := cycle_of_flow h.inDecode.noJump h.noStall
  rw [h.inDecode.pc] at hifid hpc
  have hctl : lookupCtl p (u.logCall (.fetch u.pc)).flags (u.imem.read u.pc) = (cycle p false s).idex.ctl := hex.ctl.symm
  have hupc := insnEffect_pc p (u.imem.read u.pc) (u.logCall (.fetch u.pc))
  rw [hctl, ← hex.alu, State.logCall_pc, ← insnStep_eq] at hupc
  cases hj : CtlWord.j (cycle p false s).idex.ctl with
  | true =>
    refine .jumpTarget hj ?_
    rw [hupc, if_pos hj, hpc, add_one_add_one]
  | false =>
    simp only [hj, Bool.false_eq_true, if_false] at hupc
    refine .inDecode ⟨hj, ?_, ?_⟩
    · rw [hifid, hupc, insnStep_imem, h.drains.imem]
    · rw [hpc, hupc]

/-! ### Running until the next instruction issues -/

/-- The run from `s` comes to `t` with no halt seen on the way (40_pipeline.md R141). -/
def RunsTo (p : Params) (s t : State) : Prop := ∃ k, ∀ m, runCycles p (k + m) s = runCycles p m t

theorem runsTo_refl (p : Params) (s : State) : RunsTo p s s := ⟨0, fun m => by rw [Nat.zero_add]⟩

theorem RunsTo.trans {p : Params} {s t u : State} (hst : RunsTo p s t) (htu : RunsTo p t u) : RunsTo p s u := by
  obtain ⟨k, hk⟩ := hst
  obtain ⟨l, hl⟩ := htu
  exact ⟨k + l, fun m => by rw [Nat.add_assoc, hk, hl]⟩

/-- A cycle without `halted_out` goes on. -/
theorem runsTo_cycle (p : Params) {s : State} (h : haltSignal s = false) : RunsTo p s (cycle p false s) :=
  ⟨1, fun m => by rw [Nat.add_comm, runCycles, h]; rfl⟩

/-- The cycle with `halted_out` ends the run (40_pipeline.md R141). -/
theorem RunsTo.halts {p : Params} {s t : State} (h : RunsTo p s t) (ht : haltSignal t = true) :
    ∃ k, runCycles p k s = cycle p false t := by
  obtain ⟨k, hk⟩ := h
  exact ⟨k + 1, by rw [hk, runCycles, if_pos ht]⟩

/-- No instruction in flight past EX asks for a halt. -/
abbrev NoHaltPastEX (s : State) : Prop := CtlWord.hlt s.exmem.ctl = false ∧ CtlWord.hlt s.memwb.ctl = false

/-- The pipeline is where the instruction layer is at `u`, and nothing in flight asks for a halt. -/
structure Simulates (p : Params) (s u : State) : Prop where
  drains : Drains p s u
  awaits : Awaits s u
  noHalt : CtlWord.hlt s.idex.ctl = false
  noHaltPastEX : NoHaltPastEX s

theorem Simulates.no_haltSignal {p : Params} {s u : State} (h : Simulates p s u) : haltSignal s = false := h.noHaltPastEX.2

/-- A cycle in which ID sends no effect to EX keeps the simulation, wherever the next instruction then is. -/
theorem Simulates.cycle_of_w3 {p : Params} {s u : State} (h : Simulates p s u)
    (hw3 : CtlWord.w3 (cycle p false s).idex.ctl = true) (hawaits : Awaits (cycle p false s) u) :
    Simulates p (cycle p false s) u :=
  ⟨h.drains.cycle_of_w3 hw3, hawaits, hlt_of_w3 hw3, h.noHalt, h.noHaltPastEX.1⟩

/-- A stall in front of the next instruction lasts one cycle, and then it issues (40_pipeline.md R137). -/
theorem Simulates.issues_of_inDecode {p : Params} {s u : State} (h : Simulates p s u) (hid : InDecode s u) :
    ∃ t, RunsTo p s t ∧ Issues p t u ∧ Simulates p t u := by
  cases hs : stall p false s with
  | false => exact ⟨s, runsTo_refl p s, ⟨h.drains, hid, hs⟩, h⟩
  | true =>
    obtain ⟨hidex, hifid, hpc⟩ := cycle_of_stall hs
    have hw3 : CtlWord.w3 (cycle p false s).idex.ctl = true := by rw [hidex]; exact w3_nopcw
    have hid' : InDecode (cycle p false s) u := ⟨j_of_w3 hw3, hifid.trans hid.ifid, hpc.trans hid.pc⟩
    have h' := h.cycle_of_w3 hw3 (.inDecode hid')
    exact ⟨_, runsTo_cycle p h.no_haltSignal, ⟨h'.drains, hid', stall_of_w3 p false hw3⟩, h'⟩

/-- The fetched instruction is in ID in the next cycle, behind the NOP that was there. -/
theorem Simulates.issues_of_inFetch {p : Params} {s u : State} (h : Simulates p s u)
    (hex : CtlWord.w3 s.idex.ctl = true) (hid : opcode s.ifid.ins = 0) (hpc : s.pc = u.pc) :
    ∃ t, RunsTo p s t ∧ Issues p t u ∧ Simulates p t u := by
  obtain ⟨hidex, hifid, hpc'⟩ := cycle_of_flow (j_of_w3 hex) (stall_of_w3 p false hex)
  have hw3 : CtlWord.w3 (cycle p false s).idex.ctl = true := by
    rw [hidex]
    exact lookupCtl_w3_of_nop p _ hid
  have hid' : InDecode (cycle p false s) u :=
    ⟨j_of_w3 hw3, by rw [hifid, hpc, h.drains.imem], by rw [hpc', hpc]⟩
  obtain ⟨t, hrun, ht⟩ := (h.cycle_of_w3 hw3 (.inDecode hid')).issues_of_inDecode hid'
  exact ⟨t, (runsTo_cycle p h.no_haltSignal).trans hrun, ht⟩

/-- The next instruction issues soon: only a stall, or a taken jump and its fetch, can stand before it. -/
theorem Simulates.issues {p : Params} {s u : State} (h : Simulates p s u) :
    ∃ t, RunsTo p s t ∧ Issues p t u ∧ Simulates p t u := by
  cases h.awaits with
  | inDecode hid => exact h.issues_of_inDecode hid
  | inFetch hex hid hpc => exact h.issues_of_inFetch hex hid hpc
  | jumpTarget hj htarget =>
    obtain ⟨hidex, hifid, hpc, -⟩ := cycle_of_jump p hj
    have hw3 : CtlWord.w3 (cycle p false s).idex.ctl = true := by rw [hidex]; exact w3_nopcw
    have hnop : opcode (cycle p false s).ifid.ins = 0 := by rw [hifid]; exact opcode_nopWord
    have hpc' := hpc.trans htarget
    obtain ⟨t, hrun, ht⟩ := (h.cycle_of_w3 hw3 (.inFetch hw3 hnop hpc')).issues_of_inFetch hw3 hnop hpc'
    exact ⟨t, (runsTo_cycle p h.no_haltSignal).trans hrun, ht⟩

/-- The issued instruction asks for a halt in EX exactly when the instruction-layer step ends the run. -/
theorem Issues.hlt {p : Params} {s u : State} (h : Issues p s u) :
    CtlWord.hlt (cycle p false s).idex.ctl = (insnStep p u).haltedOut := by
  rw [h.executes.ctl]
  rfl

/-- An instruction that does not halt is simulated by the cycles up to its issue. -/
theorem Simulates.step {p : Params} {s u : State} (h : Simulates p s u) (hrun : (insnStep p u).haltedOut = false) :
    ∃ t, RunsTo p s t ∧ Simulates p t (insnStep p u) := by
  obtain ⟨t, hst, hissues, ht⟩ := h.issues
  exact ⟨cycle p false t, hst.trans (runsTo_cycle p ht.no_haltSignal),
    hissues.drains.cycle_of_executes hissues.executes, hissues.awaits, hissues.hlt.trans hrun, ht.noHalt, ht.noHaltPastEX.1⟩

/-- At power-on the pipeline holds bubbles and fetches the first instruction. -/
theorem simulates_loaded (p : Params) (imem dmem : Memory) : Simulates p (loaded imem dmem) (loaded imem dmem) := by
  have hhlt : CtlWord.hlt nopcw = false := rfl
  exact ⟨Drains.of_w3 p w3_nopcw w3_nopcw w3_nopcw, .inFetch w3_nopcw opcode_nopWord rfl, hhlt, hhlt, hhlt⟩

/-- The pipeline comes to every state of a run of instructions that do not halt. -/
theorem Simulates.steps {p : Params} {s : State} (h : Simulates p s s) {n : Nat}
    (hrun : ∀ j, j ≤ n → 0 < j → (insnSteps p j s).haltedOut = false) :
    ∃ t, RunsTo p s t ∧ Simulates p t (insnSteps p n s) := by
  induction n with
  | zero => exact ⟨s, runsTo_refl p s, h⟩
  | succ n ih =>
    obtain ⟨t, hst, ht⟩ := ih fun j hj => hrun j (by omega)
    have hstep := hrun (n + 1) le_rfl (Nat.succ_pos n)
    rw [insnSteps_succ_end] at hstep ⊢
    obtain ⟨v, htv, hv⟩ := ht.step hstep
    exact ⟨v, hst.trans htv, hv⟩

/-! ### The end of the run -/

theorem quiet_iff (cw : CtlWord) :
    CtlWord.quiet cw = true ↔
      CtlWord.fi cw = true ∧ CtlWord.j cw = false ∧ CtlWord.memLoad cw = false ∧ CtlWord.memStore cw = false := by
  simp [CtlWord.quiet, and_assoc]

theorem quiet_of_w3 {cw : CtlWord} (h : CtlWord.w3 cw = true) : CtlWord.quiet cw = true := by
  obtain ⟨hfi, -, hj, hload, hstore, -⟩ := (w3_iff cw).mp h
  exact (quiet_iff cw).mpr ⟨hfi, hj, hload, hstore⟩

/-- ID sends a bubble or what it looked up, so EX is quiet when that is (40_pipeline.md R138). -/
theorem cycle_idex_quiet {p : Params} {s : State} (h : CtlWord.quiet (idCtl p s) = true) :
    CtlWord.quiet (cycle p false s).idex.ctl = true := by
  rw [cycle_idex, nextIDEX]
  dsimp only
  split
  · exact quiet_of_w3 w3_nopcw
  · exact h

/-- What the next word in ID decodes to is quiet if the one there, the one fetched and the NOP of a squash are. -/
theorem cycle_ifid_quiet {p : Params} {fl : Flags} {s : State} (hid : CtlWord.quiet (lookupCtl p fl s.ifid.ins) = true)
    (hif : CtlWord.quiet (lookupCtl p fl (s.imem.read s.pc)) = true) :
    CtlWord.quiet (lookupCtl p fl (cycle p false s).ifid.ins) = true := by
  cases hs : stall p false s with
  | true =>
    obtain ⟨-, hifid, -⟩ := cycle_of_stall hs
    rwa [hifid]
  | false =>
    cases hj : CtlWord.j s.idex.ctl with
    | true =>
      obtain ⟨-, hifid, -⟩ := cycle_of_jump p hj
      rw [hifid]
      exact quiet_of_w3 (lookupCtl_w3_of_nop p fl opcode_nopWord)
    | false =>
      obtain ⟨-, hifid, -⟩ := cycle_of_flow hj hs
      rwa [hifid]

/-- With a HLT in EX and a quiet shadow behind it, the cycle in which the HLT is in WB ends where the pipeline drains to
(70_reset_and_hazards.md R312). -/
theorem Drains.of_quietShadow {p : Params} {s u : State} (h : Drains p s u)
    (hid : CtlWord.quiet (lookupCtl p u.flags s.ifid.ins) = true)
    (hif : CtlWord.quiet (lookupCtl p u.flags (s.imem.read s.pc)) = true) :
    (cycles p false 3 s).regs = u.regs ∧ (cycles p false 3 s).flags = u.flags ∧ (cycles p false 3 s).dmem = u.dmem ∧
      dataCalls (cycles p false 3 s).calls = dataCalls u.calls := by
  have hflags : (cycle p false s).flags = u.flags := h.flags
  have hex1 : CtlWord.quiet (cycle p false s).idex.ctl = true := cycle_idex_quiet (by rwa [idCtl, h.flags])
  obtain ⟨hfi1, -, hload1, hstore1⟩ := (quiet_iff _).mp hex1
  have hflags1 : exFlags (cycle p false s) = u.flags := (exFlags_of_fi hfi1).trans hflags
  have hex2 : CtlWord.quiet (cycle p false (cycle p false s)).idex.ctl = true :=
    cycle_idex_quiet (by rw [idCtl, hflags1]; exact cycle_ifid_quiet hid hif)
  obtain ⟨hfi2, -⟩ := (quiet_iff _).mp hex2
  have hmem : memStage p (cycle p false (cycle p false s)) = (_, cycle p false (cycle p false s)) :=
    memAccess_none p _ _ _ _ hload1 hstore1
  refine ⟨h.regs, (exFlags_of_fi hfi2).trans hflags1, ?dmem, ?calls⟩
  case dmem => exact (cycle_dmem p false _).trans ((congrArg (·.2.dmem) hmem).trans h.dmem)
  case calls => exact (cycle_dataCalls p false _).trans ((congrArg (dataCalls ·.2.calls) hmem).trans h.calls)

/-- Nothing in flight asks for a halt, so the run goes on until what is in ID now can be in WB, three cycles on. -/
theorem Simulates.runsTo_writeBack {p : Params} {s u : State} (h : Simulates p s u) : RunsTo p s (cycles p false 3 s) :=
  ((runsTo_cycle p h.no_haltSignal).trans (runsTo_cycle p h.noHaltPastEX.1)).trans (runsTo_cycle p h.noHalt)

/-- Settles O34: the pipeline simulates the instructions before the HLT, issues it, and behind a quiet shadow halts where it
drains. -/
theorem pipelineRunMatchesInstructionRun : Obligations.PipelineRunMatchesInstructionRun := by
  rintro p imem dmem n u ⟨hu, hrun⟩ hhalt ⟨hquiet1, hquiet2⟩
  have himem : u.imem = imem := by rw [hu, insnSteps_imem]; rfl
  obtain ⟨s, hls, hsim⟩ := (simulates_loaded p imem dmem).steps hrun
  rw [← hu] at hsim
  obtain ⟨t, hst, hissues, ht⟩ := hsim.issues
  have hwb : haltSignal (cycles p false 3 t) = true := hissues.hlt.trans hhalt
  obtain ⟨k, hk⟩ := ((hls.trans hst).trans ht.runsTo_writeBack).halts hwb
  obtain ⟨-, hifid, hpc⟩ := cycle_of_flow hissues.inDecode.noJump hissues.noStall
  rw [hissues.inDecode.pc, hissues.drains.imem, himem] at hifid
  rw [hissues.inDecode.pc, add_one_add_one] at hpc
  refine ⟨k, ?_⟩
  rw [hk]
  refine ⟨hwb, (hissues.drains.cycle_of_executes hissues.executes).of_quietShadow ?_ ?_⟩
  · rwa [hifid]
  · rwa [cycle_imem, hissues.drains.imem, himem, hpc]

end Sys2Proof.Machine
end

section
/-!
PROOFS. Register-register ALU instructions (spec 41_alu_register.md) and CMPI: what an instruction that ends in an ALU write or a
compare does, and arithmetic on 32-bit numbers in register pairs.
-/

namespace Sys2Proof.Machine

/-! ### Results of the adder -/

/-- The carry-in counts as 1 (41_alu_register.md R188). -/
theorem add3_f_carry (x y : Word) (cin : Bool) : (add3 x y cin).f = x + y + if cin then 1 else 0 := by
  rw [add3_f]
  cases cin <;> rfl

/-- A clear carry-in is a pending borrow and counts as 1 (41_alu_register.md R189). -/
theorem add3_not_f_borrow (x y : Word) (cin : Bool) : (add3 x (~~~y) cin).f = x - y - if cin then 0 else 1 := by
  rw [add3_not_f]
  cases cin <;> rfl

theorem add3_not_flags_borrow (x y : Word) (cin : Bool) :
    (add3 x (~~~y) cin).flags = differenceFlags x y (if cin then 0 else 1) := by
  rw [add3_not_flags]
  cases cin <;> rfl

/-- A sum with zero has no carry and no overflow, so it is a logical result (41_alu_register.md R187). -/
theorem add3_zero_left (x : Word) : add3 0x0000 x false = logical x := by
  have hsum : sum17 0#16 x false = x.setWidth 17 := by simp [sum17]
  have hf : (x.setWidth 17).extractLsb' 0 16 = x := by
    ext i hi
    simp [hi]
    omega
  simp [add3, hsum, hf, logical]

/-! ### Instructions that end in an ALU write -/

/-- An ALU write changes its register, the flags and `pc` (41_alu_register.md R180). -/
theorem writesOnly_aluWrite (c : RegIdx) (r : AluOut) (s : State) : WritesOnly c s (s.aluWrite c r) :=
  ⟨fun q hq => State.setReg_reg_ne s c q r.f hq, ⟨fun _ => rfl, rfl⟩, ⟨rfl, rfl, rfl, rfl, rfl, fun _ => rfl⟩, rfl, rfl⟩

theorem State.aluWrite_reg (c : RegIdx) (r : AluOut) (s : State) : (s.aluWrite c r).reg c = r.f :=
  State.setReg_reg_same s c r.f

/-- An instruction that ends in an ALU write completes with its result and flags. -/
theorem completes_of_aluWrite {i : Instr} {c : RegIdx} {r : AluOut} {s : State} {v : Word} {fl : Flags}
    (hexec : exec i s = .next (s.aluWrite c r)) (hf : r.f = v) (hflags : r.flags = fl) :
    ∃ t, exec i s = .next t ∧ t.reg c = v ∧ t.flags = fl ∧ WritesOnly c s t :=
  ⟨_, hexec, (State.aluWrite_reg c r s).trans hf, hflags, writesOnly_aluWrite c r s⟩

/-- The same for a logical result, whose flags are those of the word written (41_alu_register.md R184 to R187). -/
theorem completes_of_logical {i : Instr} {c : RegIdx} {s : State} {v : Word}
    (hexec : exec i s = .next (s.aluWrite c (logical v))) :
    ∃ t, exec i s = .next t ∧ t.reg c = v ∧ t.flags = bitwiseFlags (t.reg c) ∧ WritesOnly c s t := by
  obtain ⟨t, ht, hreg, hflags, hframe⟩ := completes_of_aluWrite hexec rfl (logical_flags v)
  exact ⟨t, ht, hreg, by rw [hflags, hreg, logical_f], hframe⟩

/-- Settles O12: both are ALU writes of the adder's sum, ADD's carry-in is clear. -/
theorem addAndAdcWriteSumAndFlags : Obligations.AddAndAdcWriteSumAndFlags := fun _ _ _ _ =>
  ⟨completes_of_aluWrite rfl ((add3_f_carry _ _ false).trans (BitVec.add_zero _)) (add3_flags _ _ false),
    completes_of_aluWrite rfl (add3_f_carry _ _ _) (add3_flags _ _ _)⟩

/-- Settles O13: both are ALU writes of the adder's sum with the complement, SUB's carry-in says that no borrow is pending. -/
theorem subAndSbcWriteDifferenceAndFlags : Obligations.SubAndSbcWriteDifferenceAndFlags := fun _ _ _ _ =>
  ⟨completes_of_aluWrite rfl ((add3_not_f_borrow _ _ true).trans (BitVec.sub_zero _)) (add3_not_flags _ _ true),
    completes_of_aluWrite rfl (add3_not_f_borrow _ _ _) (add3_not_flags_borrow _ _ _)⟩

/-- Settles O14: NOT too writes a logical result, since it adds the complement to zero. -/
theorem logicalRegisterWritesResult : Obligations.LogicalRegisterWritesResult := by
  intro c a b s
  have hnot : exec (.not c a) s = .next (s.aluWrite c (logical (~~~(s.reg a)))) := by
    rw [← add3_zero_left]
    rfl
  exact ⟨completes_of_logical rfl, completes_of_logical rfl, completes_of_logical rfl, completes_of_logical hnot⟩

/-! ### Compares -/

/-- The Carry flag of a difference says that no borrow came out (41_alu_register.md R183). -/
theorem differenceFlags_c_iff (x y : Word) (borrow : Nat) :
    (differenceFlags x y borrow).c = true ↔ y.toNat + borrow ≤ x.toNat := decide_eq_true_iff

theorem differenceFlags_n_ne_v_iff (x y : Word) :
    (differenceFlags x y 0).n ≠ (differenceFlags x y 0).v ↔ x.toInt < y.toInt :=
  bne_iff_ne.symm.trans (condBlt_differenceFlags x y)

/-- An instruction that ends in a compare completes with the flags of the difference and keeps the rest (41_alu_register.md R181). -/
theorem completes_of_aluCompare {i : Instr} {s : State} {x y : Word}
    (hexec : exec i s = .next (s.aluCompare (add3 x (~~~y) true))) :
    ∃ t, exec i s = .next t ∧ t.flags = differenceFlags x y 0 ∧
      (t.flags.z = true ↔ x = y) ∧ (t.flags.c = true ↔ y.toNat ≤ x.toNat) ∧ (t.flags.n ≠ t.flags.v ↔ x.toInt < y.toInt) ∧
      RegsSame s t ∧ NoDataAccess s t ∧ PipelineUntouched s t ∧ t.pc = s.pc + 1 ∧ t.haltedOut = false := by
  have hflags : (s.aluCompare (add3 x (~~~y) true)).flags = differenceFlags x y 0 := add3_not_flags x y true
  refine ⟨_, hexec, hflags, ?zero, ?carry, ?sign, fun _ => rfl, ⟨fun _ => rfl, rfl⟩,
    ⟨rfl, rfl, rfl, rfl, rfl, fun _ => rfl⟩, rfl, rfl⟩ <;> rw [hflags]
  case zero => exact condBeq_differenceFlags x y
  case carry => exact differenceFlags_c_iff x y 0
  case sign => exact differenceFlags_n_ne_v_iff x y

theorem sext5_toInt (imm : BitVec 5) : (sext5 imm).toInt = imm.toInt := BitVec.toInt_signExtend_of_le (by decide)

/-- Settles O15: both are compares, and CMPI's right operand has the value of its immediate. -/
theorem compareSetsFlagsOnly : Obligations.CompareSetsFlagsOnly := by
  intro a b imm s
  rw [← sext5_toInt imm]
  exact ⟨completes_of_aluCompare rfl, completes_of_aluCompare rfl⟩

/-! ### Register pairs -/

theorem sumFlags_c_iff (x y : Word) (cin : Nat) : (sumFlags x y cin).c = true ↔ 65536 ≤ x.toNat + y.toNat + cin :=
  decide_eq_true_iff

section
variable (xh xl yh yl : Word)

/-- The sum of two pairs: the carry of the low words goes into the high sum (41_alu_register.md R188). -/
theorem append_add_append :
    (xh + yh + if (sumFlags xl yl 0).c then 1 else 0) ++ (xl + yl) = (xh ++ xl) + (yh ++ yl) := by
  apply BitVec.eq_of_toNat_eq
  have hxl := xl.isLt
  have hyl := yl.isLt
  simp only [sumFlags_c_iff, BitVec.toNat_add, toNat_append_eq_add]
  split <;> simp <;> omega

/-- The carry out of the high sum is the carry out of the whole. -/
theorem carry_append_iff :
    (sumFlags xh yh (sumFlags xl yl 0).c.toNat).c = true ↔ 2 ^ 32 ≤ (xh ++ xl).toNat + (yh ++ yl).toNat := by
  have hxl := xl.isLt
  have hyl := yl.isLt
  have hlow := sumFlags_c_iff xl yl 0
  rw [sumFlags_c_iff, toNat_append_eq_add, toNat_append_eq_add]
  cases hc : (sumFlags xl yl 0).c <;> simp [hc] at hlow ⊢ <;> omega

/-- The difference of two pairs: the borrow of the low words comes off the high difference (41_alu_register.md R189). -/
theorem append_sub_append :
    (xh - yh - if (differenceFlags xl yl 0).c then 0 else 1) ++ (xl - yl) = (xh ++ xl) - (yh ++ yl) := by
  apply BitVec.eq_of_toNat_eq
  have hxl := xl.isLt
  have hyl := yl.isLt
  have hyh := yh.isLt
  simp only [differenceFlags_c_iff, BitVec.toNat_sub, toNat_append_eq_add]
  split <;> simp <;> omega

/-- No borrow comes out of the high difference exactly when none comes out of the whole. -/
theorem noBorrow_append_iff :
    (differenceFlags xh yh (if (differenceFlags xl yl 0).c then 0 else 1)).c = true ↔
      (yh ++ yl).toNat ≤ (xh ++ xl).toNat := by
  have hxl := xl.isLt
  have hyl := yl.isLt
  have hlow := differenceFlags_c_iff xl yl 0
  rw [differenceFlags_c_iff, toNat_append_eq_add, toNat_append_eq_add]
  cases hc : (differenceFlags xl yl 0).c <;> simp [hc] at hlow ⊢ <;> omega

end

/-- Settles O32: the high step reads its operands as they were and the low step's Carry flag, and keeps the low result. -/
theorem carryChainsToThirtyTwoBits : Obligations.CarryChainsToThirtyTwoBits := by
  intro cl ch al ah bl bh s hah hbh hch
  constructor
  · obtain ⟨⟨t, ht, hlow, hcarry, hkept, -⟩, -⟩ := addAndAdcWriteSumAndFlags cl al bl s
    obtain ⟨-, u, hu, hhigh, hflags, hkeptHigh, -⟩ := addAndAdcWriteSumAndFlags ch ah bh t
    rw [hkept ah hah.symm, hkept bh hbh.symm, hcarry] at hhigh hflags
    refine ⟨t, u, ht, hu, ?_, ?_⟩
    · rw [hhigh, hkeptHigh cl hch, hlow, append_add_append]
    · rw [hflags, carry_append_iff]
  · obtain ⟨⟨t, ht, hlow, hborrow, hkept, -⟩, -⟩ := subAndSbcWriteDifferenceAndFlags cl al bl s
    obtain ⟨-, u, hu, hhigh, hflags, hkeptHigh, -⟩ := subAndSbcWriteDifferenceAndFlags ch ah bh t
    rw [hkept ah hah.symm, hkept bh hbh.symm, hborrow] at hhigh hflags
    refine ⟨t, u, ht, hu, ?_, ?_⟩
    · rw [hhigh, hkeptHigh cl hch, hlow, append_sub_append]
    · rw [hflags, noBorrow_append_iff]

end Sys2Proof.Machine
end

section
/-!
PROOFS. Register-immediate ALU instructions that write a register (spec 42_alu_immediate.md): the register forms' ALU writes, with
the immediate's signed number as right operand.
-/

namespace Sys2Proof.Machine

/-- The extended immediate is the word of its signed number (42_alu_immediate.md R200). -/
theorem sext5_eq_ofInt_toInt (imm : BitVec 5) : sext5 imm = BitVec.ofInt 16 imm.toInt := rfl

/-- Settles O16: ADDI is an ALU write of the adder's sum with a clear carry-in, SUBI of its sum with the complement and no borrow
pending. -/
theorem addiAndSubiWriteResultAndFlags : Obligations.AddiAndSubiWriteResultAndFlags := by
  intro c a imm s
  rw [← sext5_eq_ofInt_toInt imm]
  constructor
  · have hsum : (add3 (s.reg a) (sext5 imm) false).f = s.reg a + sext5 imm :=
      (add3_f_carry _ _ false).trans (BitVec.add_zero _)
    exact completes_of_aluWrite rfl hsum (add3_flags _ _ false)
  · have hdifference : (add3 (s.reg a) (~~~(sext5 imm)) true).f = s.reg a - sext5 imm :=
      (add3_not_f_borrow _ _ true).trans (BitVec.sub_zero _)
    exact completes_of_aluWrite rfl hdifference (add3_not_flags _ _ true)

/-- Settles O17: each is a logical ALU write, and its right operand is sign-extended like that of the arithmetic forms. -/
theorem logicalImmediateWritesResult : Obligations.LogicalImmediateWritesResult := by
  intro c a imm s
  rw [← sext5_eq_ofInt_toInt imm]
  exact ⟨completes_of_logical rfl, completes_of_logical rfl, completes_of_logical rfl⟩

end Sys2Proof.Machine
end

section
/-!
PROOFS. LOAD and STORE (spec 43_load_store.md): the effective address in plain integers, what each of the two does with plain memory,
and a LOAD behind a STORE. What they leave unchanged is their case of `everyInstructionKeepsItsFrame`.
-/

namespace Sys2Proof.Machine

/-! ### The effective address -/

/-- A wrapping sum may count its second operand as a signed number (00_scope.md R10). -/
theorem toNat_add_eq_toInt_emod (x y : Word) : ((x + y).toNat : Int) = (x.toNat + y.toInt) % 65536 := by
  rw [BitVec.toNat_add, BitVec.toInt_eq_toNat_cond]
  split <;> omega

/-- Settles O20: the address is a wrapping sum, and its right operand has the value of the displacement. -/
theorem effectiveAddressWraps : Obligations.EffectiveAddressWraps := by
  intro base imm
  have hsum : ((effectiveAddress base imm).toNat : Int) = (base.toNat + imm.toInt) % 65536 := by
    rw [effectiveAddress, toNat_add_eq_toInt_emod, sext5_toInt]
  exact ⟨hsum, imm.le_toInt, Int.le_of_lt_add_one imm.toInt_lt⟩

/-! ### One access each -/

/-- LOAD with plain memory: the call with its answer, the answer in the destination, `pc + 1` (43_load_store.md R220; D27). -/
theorem exec_load (c a : RegIdx) (imm : BitVec 5) (s : State) {y : Word} (hy : effectiveAddress (s.reg a) imm = y) :
    exec (.load c a imm) s = .next (((s.logCall (.load y (s.dmem.read y))).setReg c (s.dmem.read y)).advance) := by
  subst hy
  rfl

/-- STORE with plain memory: the call, the word at the address, `pc + 1` (43_load_store.md R221; D27). -/
theorem exec_store (b a : RegIdx) (imm : BitVec 5) (s : State) :
    exec (.store b a imm) s =
      .next ((s.dataStore Params.ref (effectiveAddress (s.reg a) imm) (s.reg b)).advance) := rfl

/-- Settles O18: the destination gets the answer of the one call, the rest is LOAD's frame. -/
theorem loadReadsOneWord : Obligations.LoadReadsOneWord := by
  intro c a imm s
  have hexec := exec_load c a imm s rfl
  obtain ⟨hregs, hflags, hmem, hpipeline, -⟩ := everyInstructionKeepsItsFrame _ _ _ hexec
  refine ⟨_, hexec, State.setReg_reg_same _ c _, fun r hr => hregs r ?notDestination, hflags rfl,
    fun x => hmem x (Option.some_ne_none x).symm, rfl, hpipeline, rfl, rfl⟩
  case notDestination => exact fun h => hr (Option.some.inj h).symm

/-- Settles O19: the word at the address is the one written, the rest is STORE's frame. -/
theorem storeWritesOneWord : Obligations.StoreWritesOneWord := by
  intro b a imm s
  have hexec := exec_store b a imm s
  obtain ⟨hregs, hflags, hmem, hpipeline, -⟩ := everyInstructionKeepsItsFrame _ _ _ hexec
  refine ⟨_, hexec, Memory.read_write_same s.dmem _ (s.reg b), fun x hx => hmem x ?otherAddress, rfl,
    fun r => hregs r (Option.some_ne_none r).symm, hflags rfl, hpipeline, rfl, rfl⟩
  case otherAddress => exact fun h => hx (Option.some.inj h).symm

/-! ### A load behind a store -/

/-- Settles O31: the STORE keeps the LOAD's base register, so the LOAD reads the word stored. -/
theorem loadAfterStoreReturnsStoredWord : Obligations.LoadAfterStoreReturnsStoredWord := by
  intro b a c a' imm imm' s hsame
  obtain ⟨t, hstore, hword, -, -, hregs, -⟩ := storeWritesOneWord b a imm s
  obtain ⟨u, hload, hdest, -⟩ := loadReadsOneWord c a' imm' t
  have hread : u.reg c = s.reg b := by
    rw [hdest, hregs a', hsame, hword]
  exact ⟨t, u, hstore, hload, hread⟩

end Sys2Proof.Machine
end

section
/-!
PROOFS. LI and LUI (spec 44_immediate_moves.md): both end in a move, which writes one register and keeps the flags; the words they
move, as numbers and as bytes.
-/

namespace Sys2Proof.Machine

/-! ### The words moved -/

theorem sext8_toInt (imm : BitVec 8) : (sext8 imm).toInt = imm.toInt := BitVec.toInt_signExtend_of_le (by decide)

/-- The new high byte counts 256 times, the kept low byte is the old word's remainder (44_immediate_moves.md R231). -/
theorem toNat_mergeLanes_imm8High (imm : BitVec 8) (old : Word) :
    (mergeLanes false true (imm8High imm) old).toNat = imm.toNat * 256 + old.toNat % 256 := by
  have hlo : (loByte old).toNat = old.toNat % 256 := BitVec.extractLsb'_toNat 0 8 old
  have hbytes : mergeLanes false true (imm8High imm) old = imm ++ loByte old :=
    congrArg (· ++ loByte old) (hiByte_imm8High imm)
  rw [hbytes, toNat_append_eq_add, hlo]
  rfl

/-- The high byte of a word over LI's extension of its low byte is the word: the extension's own high byte is replaced
(44_immediate_moves.md R232). -/
theorem mergeLanes_hiByte_sext8_loByte (k : Word) :
    mergeLanes false true (imm8High (hiByte k)) (sext8 (loByte k)) = k := by
  apply word_ext_bytes
  · simp
  · simp

/-! ### Instructions that end in a move -/

/-- A move is the register write of an ALU instruction with the flags put back as they were. -/
theorem State.setReg_advance_eq_aluWrite (c : RegIdx) (v : Word) (s : State) :
    (s.setReg c v).advance = s.aluWrite c ⟨v, s.flags⟩ := rfl

theorem completes_of_move {i : Instr} {c : RegIdx} {v : Word} {s : State} (hexec : exec i s = .next ((s.setReg c v).advance)) :
    ∃ t, exec i s = .next t ∧ t.reg c = v ∧ t.flags = s.flags ∧ WritesOnly c s t := by
  rw [State.setReg_advance_eq_aluWrite] at hexec
  exact completes_of_aluWrite hexec rfl rfl

theorem exec_li (c : RegIdx) (imm : BitVec 8) (s : State) :
    exec (.li c imm) s = .next ((s.setReg c (sext8 imm)).advance) := rfl

theorem exec_lui (c : RegIdx) (imm : BitVec 8) (s : State) :
    exec (.lui c imm) s = .next ((s.setReg c (mergeLanes false true (imm8High imm) (s.reg c))).advance) := rfl

/-- Settles O21: both are moves, LI's of the extended immediate, LUI's of its register with a new high byte. -/
theorem immediateMovesWriteTheirBytes : Obligations.ImmediateMovesWriteTheirBytes := by
  intro c imm s
  constructor
  · obtain ⟨t, hexec, hreg, hkept⟩ := completes_of_move (exec_li c imm s)
    exact ⟨t, hexec, by rw [hreg, sext8_toInt], hkept⟩
  · obtain ⟨t, hexec, hreg, hkept⟩ := completes_of_move (exec_lui c imm s)
    exact ⟨t, hexec, by rw [hreg, toNat_mergeLanes_imm8High], hkept⟩

/-! ### A constant in two moves -/

/-- Settles O30: LUI keeps the low byte that LI wrote, and the frames of the two moves compose. -/
theorem liThenLuiLoadsConstant : Obligations.LiThenLuiLoadsConstant := by
  intro c k s
  obtain ⟨t, hli, hlow, hflagsLi, hkeptLi, -, -, hpcLi, -⟩ := completes_of_move (exec_li c (loByte k) s)
  obtain ⟨u, hlui, hword, hflagsLui, hkeptLui, -, -, hpcLui, -⟩ := completes_of_move (exec_lui c (hiByte k) t)
  have hconstant : u.reg c = k := by rw [hword, hlow, mergeLanes_hiByte_sext8_loByte]
  have hregs : RegsExcept c s u := fun r hr => (hkeptLui r hr).trans (hkeptLi r hr)
  have hpc : u.pc = s.pc + 2 := by rw [hpcLui, hpcLi, BitVec.add_assoc]; rfl
  exact ⟨t, u, hli, hlui, hconstant, hregs, hflagsLui.trans hflagsLi, hpc⟩

end Sys2Proof.Machine
end

section
/-!
PROOFS. Control transfer (spec 45_control_transfer.md): the two kinds of target in plain integers, the branch conditions as
propositions, and what an instruction that ends in a jump or a branch does.
-/

namespace Sys2Proof.Machine

/-! ### Targets -/

theorem sext11_toInt (d : BitVec 11) : (sext11 d).toInt = d.toInt := BitVec.toInt_signExtend_of_le (by decide)

/-- The extended displacement is the word of its signed number (45_control_transfer.md R240). -/
theorem sext11_eq_ofInt_toInt (d : BitVec 11) : sext11 d = BitVec.ofInt 16 d.toInt := rfl

/-- Adding 2 to `pc` and adding the displacement wrap once as one sum (45_control_transfer.md R240). -/
theorem relativeTarget_toNat (pc : Word) (d : BitVec 11) :
    ((relativeTarget pc d).toNat : Int) = (pc.toNat + 2 + d.toInt) % 65536 := by
  have hnext : (pc + 2).toNat = (pc.toNat + 2) % 65536 := BitVec.toNat_add pc 2
  rw [relativeTarget, toNat_add_eq_toInt_emod, sext11_toInt, hnext]
  omega

/-- A register-indirect target is formed like an effective address (45_control_transfer.md R240, 43_load_store.md R219). -/
theorem indirectTarget_eq_effectiveAddress (base : Word) (imm : BitVec 5) :
    indirectTarget base imm = effectiveAddress base imm := rfl

theorem indirectTarget_toNat (base : Word) (imm : BitVec 5) :
    ((indirectTarget base imm).toNat : Int) = (base.toNat + imm.toInt) % 65536 := by
  obtain ⟨hsum, -, -⟩ := effectiveAddressWraps base imm
  rw [indirectTarget_eq_effectiveAddress, hsum]

/-! ### The branch conditions on any flags -/

theorem condBeq_iff (fl : Flags) : condBeq fl = true ↔ fl.z = true := Iff.rfl

theorem condBne_iff (fl : Flags) : condBne fl = true ↔ fl.z = false := by
  rw [condBne, Bool.not_eq_true']

theorem condBlt_iff (fl : Flags) : condBlt fl = true ↔ fl.n ≠ fl.v := bne_iff_ne

theorem condBgt_iff (fl : Flags) : condBgt fl = true ↔ fl.z = false ∧ fl.n = fl.v := by
  rw [condBgt, Bool.and_eq_true, Bool.not_eq_true', beq_iff_eq]

theorem condBltu_iff (fl : Flags) : condBltu fl = true ↔ fl.c = false := by
  rw [condBltu, Bool.not_eq_true']

theorem condBgtu_iff (fl : Flags) : condBgtu fl = true ↔ fl.c = true ∧ fl.z = false := by
  rw [condBgtu, Bool.and_eq_true, Bool.not_eq_true']

/-! ### Instructions that end in a jump -/

theorem changesOnlyPC_continueAt (target : Word) (s : State) : ChangesOnlyPC s (s.continueAt target) :=
  ⟨fun _ => rfl, rfl, ⟨fun _ => rfl, rfl⟩, rfl, rfl, rfl, rfl, rfl, fun _ => rfl⟩

/-- Taken or not, a branch goes on somewhere and changes nothing else (45_control_transfer.md R250). -/
theorem changesOnlyPC_branch (taken : Bool) (d : BitVec 11) (s : State) : ChangesOnlyPC s (s.branch taken d) := by
  cases taken with
  | false => exact changesOnlyPC_continueAt _ s
  | true => exact changesOnlyPC_continueAt _ s

theorem State.branch_haltedOut (taken : Bool) (d : BitVec 11) (s : State) : (s.branch taken d).haltedOut = false := by
  rw [State.branch_eq]

/-- An instruction that ends in a jump to `target` completes there, if `target` is the number `n`. -/
theorem completes_of_continueAt {i : Instr} {s : State} {target : Word} {n : Int}
    (hexec : exec i s = .next (s.continueAt target)) (htarget : (target.toNat : Int) = n) :
    ∃ t, exec i s = .next t ∧ (t.pc.toNat : Int) = n ∧ ChangesOnlyPC s t ∧ t.haltedOut = false :=
  ⟨_, hexec, htarget, changesOnlyPC_continueAt target s, rfl⟩

/-- An instruction that ends in a branch on a condition that says `P` completes at its target exactly when `P` holds
(45_control_transfer.md R244 to R251). -/
theorem completes_of_branch {i : Instr} {s : State} {d : BitVec 11} {taken : Bool} {P : Prop} [Decidable P]
    (hexec : exec i s = .next (s.branch taken d)) (hcond : taken = true ↔ P) :
    ∃ t, exec i s = .next t ∧ t.pc = (if P then s.pc + 2 + BitVec.ofInt 16 d.toInt else s.pc + 1) ∧
      ChangesOnlyPC s t ∧ t.haltedOut = false := by
  have hpc := State.branch_pc_of_iff hcond d s
  rw [relativeTarget, sext11_eq_ofInt_toInt] at hpc
  exact ⟨_, hexec, hpc, changesOnlyPC_branch taken d s, State.branch_haltedOut taken d s⟩

/-- Settles O24: each ends in a branch, and its condition is the one that R92 gives for its flags. -/
theorem branchesDecideOnFlags : Obligations.BranchesDecideOnFlags := fun _ s =>
  ⟨completes_of_branch rfl (condBeq_iff s.flags), completes_of_branch rfl (condBne_iff s.flags),
    completes_of_branch rfl (condBlt_iff s.flags), completes_of_branch rfl (condBgt_iff s.flags),
    completes_of_branch rfl (condBltu_iff s.flags), completes_of_branch rfl (condBgtu_iff s.flags)⟩

/-- Settles O22: both end in a jump, JMP's to the relative target and JR's to the indirect one. -/
theorem jmpAndJrMovePC : Obligations.JmpAndJrMovePC := fun a imm d s =>
  ⟨completes_of_continueAt rfl (relativeTarget_toNat s.pc d),
    completes_of_continueAt rfl (indirectTarget_toNat (s.reg a) imm)⟩

/-- The jump of JALR is to a target of the state before the link is written (45_control_transfer.md R243). -/
theorem exec_jalr (c a : RegIdx) (imm : BitVec 5) (s : State) :
    exec (.jalr c a imm) s = .next ((s.setReg c (s.pc + 1)).continueAt (indirectTarget (s.reg a) imm)) := rfl

/-- Settles O23: the link is written behind the target's read of the register, and the jump keeps what the write gave. -/
theorem jalrLinksAndJumps : Obligations.JalrLinksAndJumps := by
  intro c a imm s
  obtain ⟨hregs, hflags, hdata, hpipeline⟩ :=
    changesOnlyPC_continueAt (indirectTarget (s.reg a) imm) (s.setReg c (s.pc + 1))
  have hlink := (hregs c).trans (State.setReg_reg_same s c (s.pc + 1))
  have hkept : RegsExcept c s _ := fun r hr => (hregs r).trans (State.setReg_reg_ne s c r (s.pc + 1) hr)
  exact ⟨_, exec_jalr c a imm s, indirectTarget_toNat (s.reg a) imm, hlink, hkept, hflags, hdata, hpipeline, rfl⟩

end Sys2Proof.Machine
end

section
/-!
PROOFS. NOP, HLT and the unused opcodes (spec 46_system.md): the words of an opcode as a range, the decoder on the four opcodes without
operands, opcode 0 in a decode table, and what an instruction that only advances `pc` does.
-/

namespace Sys2Proof.Machine

/-! ### The words of an opcode -/

/-- The opcode is the word without its low eleven bits (30_encoding.md R71). -/
theorem opcode_toNat (w : Word) : (opcode w).toNat = w.toNat / 2048 := by
  have hbits : (opcode w).toNat = (w.toNat >>> 11) % 2 ^ 5 := BitVec.extractLsb'_toNat 11 5 w
  have hw : w.toNat < 65536 := w.isLt
  rw [hbits, Nat.shiftRight_eq_div_pow]
  omega

/-- The words of one opcode are 2048 in a row. -/
theorem opcode_toNat_eq_iff (w : Word) (k : Nat) :
    (opcode w).toNat = k ↔ k * 2048 ≤ w.toNat ∧ w.toNat < k * 2048 + 2048 := by
  rw [opcode_toNat]
  omega

theorem decode_of_opcode_0 {w : Word} (h : (opcode w).toNat = 0) : decode w = .nop := by simp [decode, h]

theorem decode_of_opcode_1 {w : Word} (h : (opcode w).toNat = 1) : decode w = .hlt := by simp [decode, h]

theorem decode_of_opcode_19 {w : Word} (h : (opcode w).toNat = 19) : decode w = .unused19 := by simp [decode, h]

theorem decode_of_opcode_23 {w : Word} (h : (opcode w).toNat = 23) : decode w = .unused23 := by simp [decode, h]

/-! ### Opcode 0 in a decode table -/

/-- `REFDT` gives opcode 0 the control word `NOPCW` (30_encoding.md R91). -/
theorem refdt_opcode_0 (fl : Flags) : refdt (tableAddress fl 0) = nopcw := by
  have h := lookupCtl_nop (p := Params.ref) rfl fl opcode_nopWord
  rwa [refdt_lookup, opcode_nopWord] at h

/-- W3 reaches opcode 0 at every flag value: the table makes parameters, and the zero word looks the entry up (30_encoding.md R90). -/
theorem w3_opcode_0_of_table {dt : DecodeTable} (h : tableWellFormed dt = true) (fl : Flags) :
    CtlWord.w3 (dt (tableAddress fl 0)) = true := by
  have hw3 := lookupCtl_w3_of_nop { Params.ref with dt := dt, wellFormed := h } fl opcode_nopWord
  rwa [lookupCtl, opcode_nopWord] at hw3

/-! ### Instructions that only advance -/

/-- `pc` and the halt output are outside what `ChangesOnlyPC` asks to be kept. -/
theorem changesOnlyPC_advance_halt (halt : Bool) (s : State) : ChangesOnlyPC s { s.advance with haltedOut := halt } :=
  changesOnlyPC_continueAt (s.pc + 1) s

theorem exec_nop (s : State) : exec .nop s = .next s.advance := rfl

theorem exec_unused19 (s : State) : exec .unused19 s = .next s.advance := rfl

theorem exec_unused23 (s : State) : exec .unused23 s = .next s.advance := rfl

theorem exec_hlt (s : State) : exec .hlt s = .next { s.advance with haltedOut := true } := rfl

/-! ### The statements -/

/-- Settles O25: the words below 2048 have opcode 0, whose meaning ends in `advance` and whose table entries W3 constrains. -/
theorem nopOnlyAdvancesPC : Obligations.NopOnlyAdvancesPC := by
  refine ⟨fun w hhi => ?words, fun s => ?meaning, refdt_opcode_0, fun _ fl h => w3_opcode_0_of_table h fl⟩
  case words => exact decode_of_opcode_0 ((opcode_toNat_eq_iff w 0).mpr ⟨Nat.zero_le _, by omega⟩)
  case meaning => exact ⟨s.advance, exec_nop s, changesOnlyPC_advance_halt false s, rfl, rfl⟩

/-- Settles O26: each opcode is one range of words, and its meaning ends in the same `advance` as NOP's. -/
theorem unusedOpcodesActAsNop : Obligations.UnusedOpcodesActAsNop := by
  refine ⟨fun w hlo hhi => ?words19, fun w hlo hhi => ?words23, fun s => ?meaning⟩
  case words19 => exact decode_of_opcode_19 ((opcode_toNat_eq_iff w 19).mpr ⟨by omega, by omega⟩)
  case words23 => exact decode_of_opcode_23 ((opcode_toNat_eq_iff w 23).mpr ⟨by omega, by omega⟩)
  case meaning => exact ⟨s.advance, exec_unused19 s, exec_unused23 s, exec_nop s⟩

/-- Settles O27: HLT raises the halt output beside its `advance`, and no step looks at that output. -/
theorem hltOnlyEndsTheRun : Obligations.HltOnlyEndsTheRun := by
  obtain ⟨-, hstep⟩ := meaningsAreTheGenericStep
  refine ⟨fun w hlo hhi => ?words, fun s => ?meaning⟩
  case words => exact decode_of_opcode_1 ((opcode_toNat_eq_iff w 1).mpr ⟨by omega, by omega⟩)
  case meaning => exact ⟨_, exec_hlt s, changesOnlyPC_advance_halt true s, rfl, rfl, _, hstep _⟩

end Sys2Proof.Machine
end

section
/-!
PROOFS. Exceptions (spec 60_exceptions.md): the port calls a cycle's output signals announce, that every instruction step answers, and
which driver operations are refused.
-/

namespace Sys2Proof.Machine

/-! ### Port calls and output signals -/

/-- The fetch strobe is up unless the cycle is a reset cycle or stalled (20_memory.md R64). -/
@[simp] theorem outputSignals_fetchStrobe (p : Params) (rst : Bool) (s : State) :
    (outputSignals p rst s).fetchStrobe = fetches p rst s := rfl

/-- The calls of MEM's access, youngest first: a store after a load, each if its strobe is up (60_exceptions.md R286). -/
theorem memStage_calls_of_signals (p : Params) (rst : Bool) (s : State) :
    (memStage p s).2.calls =
      (if (outputSignals p rst s).storeStrobe then
        [.store (outputSignals p rst s).dataAddress (outputSignals p rst s).storeData] else []) ++
      (if (outputSignals p rst s).loadStrobe then
        [.load (outputSignals p rst s).dataAddress (p.dload (dataCalls s.calls) s.dmem s.exmem.y)] else []) ++ s.calls :=
  memAccess_calls p s.exmem.ctl s.exmem.y s.exmem.sop s

/-- Settles O42: the calls after a cycle are IF's fetch, if its strobe is up, before those of MEM's access. -/
theorem portCallsFollowTheSignals : Obligations.PortCallsFollowTheSignals := by
  intro p rst s
  refine ⟨p.dload (dataCalls s.calls) s.dmem s.exmem.y, rfl, ?_⟩
  rw [cycle_calls, memStage_calls_of_signals p rst, outputSignals_fetchStrobe]
  split <;> rfl

/-! ### The instruction step -/

/-- Settles O11: every word's meaning is the generic step, which is a state. -/
theorem everyStepAnswersNext : Obligations.EveryStepAnswersNext := by
  obtain ⟨-, hstep⟩ := meaningsAreTheGenericStep
  exact fun s => ⟨insnStep Params.ref s, hstep s⟩

/-! ### Refused parameters -/

/-- A refused `reset()` refuses the hard reset with it (70_reset_and_hazards.md R304). -/
theorem hardReset_of_refused {c : Setup} {s : State} {r : Refusal} (h : resetSequence c s = .refused r) :
    hardReset c s = .refused r := by
  rw [hardReset, h, andThen_refused]

/-- `reset()` refuses an ill-formed table (30_encoding.md R90). -/
theorem resetSequence_illFormed (c : Setup) (s : State) (h : tableWellFormed c.dt = false) :
    resetSequence c s = .refused .illFormedTable :=
  c.admitted_illFormed _ h

/-- `reset()` with admitted parameters (70_reset_and_hazards.md R300 to R303). -/
theorem resetSequence_params (p : Params) (s : State) :
    resetSequence p.toSetup s =
      if resetCyclesOk p.resetCycles then andThen (clocks p true p.resetCycles s) fun t => .next { t with cyc := 0 }
      else .refused .tooFewResetCycles :=
  Setup.admitted_params p _

/-- The limit on `RESET_CYCLES` (70_reset_and_hazards.md R302). -/
theorem resetCyclesOk_iff (n : Nat) : resetCyclesOk n = true ↔ 3 ≤ n := decide_eq_true_iff

/-- `reset()` refuses fewer than 3 reset cycles (70_reset_and_hazards.md R302). -/
theorem resetSequence_tooFew (p : Params) (s : State) (h : p.resetCycles < 3) :
    resetSequence p.toSetup s = .refused .tooFewResetCycles := by
  rw [resetSequence_params, if_neg]
  rw [resetCyclesOk_iff]
  exact Nat.not_le.mpr h

/-! ### Runs in separate spaces -/

section
variable {p : Params} (hp : ∀ l b a, p.instrAlias l b a = false)
include hp

/-- Where the environment aliases nothing, any number of cycles is answered (20_memory.md R52). -/
theorem clocks_separate (rst : Bool) (n : Nat) (s : State) : clocks p rst n s = .next (cycles p rst n s) := by
  induction n generalizing s with
  | zero => rfl
  | succ n ih => rw [clocks, clock_separate p hp, andThen_next, ih, cycles]

/-- Where the environment aliases nothing, a run of cycles is answered (40_pipeline.md R141). -/
theorem runClocks_separate (n : Nat) (s : State) : runClocks p n s = .next (runCycles p n s) := by
  induction n generalizing s with
  | zero => rfl
  | succ n ih =>
    rw [runClocks, clock_separate p hp, andThen_next, ih, runCycles]
    split <;> rfl

/-- Where the environment aliases nothing, a run of instructions is answered (40_pipeline.md R144). -/
theorem runInsnClocks_separate (n : Nat) (s : State) : runInsnClocks p n s = .next (runInsns p n s) := by
  induction n generalizing s with
  | zero => rfl
  | succ n ih =>
    rw [runInsnClocks, insnClock_separate p hp, andThen_next, ih, runInsns]
    split <;> rfl

/-- Where the environment aliases nothing, `reset()` with enough reset cycles is answered (70_reset_and_hazards.md R300, R302). -/
theorem resetSequence_separate (s : State) (h : 3 ≤ p.resetCycles) :
    resetSequence p.toSetup s = .next { cycles p true p.resetCycles s with cyc := 0 } := by
  rw [resetSequence_params, if_pos ((resetCyclesOk_iff _).mpr h), clocks_separate hp, andThen_next]

end

/-- Settles O55: every operation goes through `Setup.admitted`, which refuses an ill-formed table and hands a well-formed one on;
`reset()` then checks its cycle count, and in separate spaces nothing else is refused. -/
theorem illFormedParametersAreRefused : Obligations.IllFormedParametersAreRefused := by
  refine ⟨fun c rst n s h => ?illFormed, fun p s h => ?tooFew, fun p rst n s hp => ?admitted⟩
  case illFormed =>
    have hreset := resetSequence_illFormed c s h
    exact ⟨c.admitted_illFormed _ h, c.admitted_illFormed _ h, hreset, hardReset_of_refused hreset,
      c.admitted_illFormed _ h, c.admitted_illFormed _ h⟩
  case tooFew =>
    have hreset := resetSequence_tooFew p s h
    exact ⟨hreset, hardReset_of_refused hreset⟩
  case admitted =>
    rw [driverStep, runPipeline, insnDriverStep, runProgram]
    simp only [Setup.admitted_params]
    exact ⟨clock_separate p hp rst s, runClocks_separate hp n s, insnClock_separate p hp s, runInsnClocks_separate hp n s,
      resetSequence_separate hp s⟩

end Sys2Proof.Machine
end

section
/-!
PROOFS. Reset (spec 70_reset_and_hazards.md R300 to R304): the latches three reset cycles leave, the completion of the instructions
in WB, MEM and EX, and the hard reset; and the words of 95_test_vectors.md.
-/

namespace Sys2Proof.Machine

/-! ### The latches behind a bubble -/

/-- The register fields of the word of a squashed slot (40_pipeline.md R139). -/
theorem fields_nopWord : fieldA 0x0000 = 0 ∧ fieldB 0x0000 = 0 ∧ fieldC 0x0000 = 0 := ⟨rfl, rfl, rfl⟩

/-- A bubble in EX gives MEM a zero result, its own right operand and its own fields (10_state.md R35, 40_pipeline.md R131). -/
theorem nextEXMEM_bubble {s : State} (h : s.idex.ctl = nopcw) :
    nextEXMEM s = ⟨nopcw, 0x0000, s.idex.b, fieldC s.idex.ins, s.idex.pc⟩ := by
  rw [nextEXMEM, exAlu, exStoreOp, h]
  rfl

/-- Reset behind a cleared ID gives EX a bubble of the NOP word, whose operands are both register 0 (40_pipeline.md R138). -/
theorem cycle_reset_idex (p : Params) {s : State} (h : s.ifid = ⟨0x0000, 0x0000⟩) :
    (cycle p true s).idex = ⟨nopcw, idRead p s 0, idRead p s 0, 0x0000, 0x0000⟩ := by
  obtain ⟨hA, hB, -⟩ := fields_nopWord
  simp only [cycle_idex, nextIDEX, h, hA, hB, Bool.true_or, if_true]

/-- A bubble in MEM moves on to WB as it is (10_state.md R35, 40_pipeline.md R124). -/
theorem nextMEMWB_bubble (p : Params) {s : State} (h : s.exmem.ctl = nopcw) :
    nextMEMWB p s = ⟨nopcw, s.exmem.y, s.exmem.sop, s.exmem.selC, s.exmem.pc⟩ := by
  rw [nextMEMWB, memStage_bubble p h, h]

/-- With a bubble in EX, ID reads what the register file holds once WB and MEM have committed (40_pipeline.md R135). -/
theorem idRead_bubble_idex (p : Params) (rst rst' : Bool) {s : State} (h : s.idex.ctl = nopcw) (r : RegIdx) :
    idRead p s r = (cycle p rst' (cycle p rst s)).reg r := by
  rw [idRead, pendingEX_over_bubble h]
  exact (readReg_commitReg_eq_over _ _ _ _ _).symm

/-- With bubbles in EX and MEM, ID reads what the register file holds once WB has committed (40_pipeline.md R135). -/
theorem idRead_bubble_idex_exmem (p : Params) (rst : Bool) {s : State} (hidex : s.idex.ctl = nopcw)
    (hexmem : s.exmem.ctl = nopcw) (r : RegIdx) : idRead p s r = (cycle p rst s).reg r := by
  rw [idRead, pendingEX_over_bubble hidex, pendingMEM_over_bubble p hexmem]
  rfl

/-! ### Reset and the ports -/

/-- A reset cycle makes the calls of MEM's access and no fetch (40_pipeline.md R139). -/
theorem cycle_reset_calls (p : Params) (s : State) : (cycle p true s).calls = (memStage p s).2.calls := by
  rw [cycle_calls, if_neg (by simp [fetches])]

/-- MEM's access is no fetch (40_pipeline.md R124). -/
theorem memStage_fetchCalls (p : Params) (s : State) :
    (memStage p s).2.calls.filter (fun c => !PortCall.isData c) = s.calls.filter (fun c => !PortCall.isData c) := by
  rw [memStage, memAccess_calls]
  cases CtlWord.memLoad s.exmem.ctl <;> cases CtlWord.memStore s.exmem.ctl <;> rfl

/-- Reset cycles leave the instruction memory alone and fetch nothing from it (40_pipeline.md R139). -/
theorem resets_make_no_fetch (p : Params) (n : Nat) (s : State) :
    (cycles p true n s).imem = s.imem ∧
      (cycles p true n s).calls.filter (fun c => !PortCall.isData c) = s.calls.filter (fun c => !PortCall.isData c) := by
  induction n with
  | zero => exact ⟨rfl, rfl⟩
  | succ n ih =>
    rw [cycles_succ_end, cycle_imem, cycle_reset_calls, memStage_fetchCalls]
    exact ih

/-! ### The pipeline reset leaves -/

/-- The latches after enough reset cycles (70_reset_and_hazards.md R303): bubbles made of the NOP word at address 0, with register 0
as their operands. WB's other fields take one cycle more than its control word. -/
structure Emptied (s : State) : Prop where
  pc : s.pc = 0x0000
  ifid : s.ifid = ⟨0x0000, 0x0000⟩
  idex : s.idex = ⟨nopcw, s.reg 0, s.reg 0, 0x0000, 0x0000⟩
  exmem : s.exmem = ⟨nopcw, 0x0000, s.reg 0, 0, 0x0000⟩
  memwb : s.memwb.ctl = nopcw

/-- Each reset cycle sends one more bubble into the pipeline: three empty it, whatever it held (70_reset_and_hazards.md R302). -/
theorem emptied_of_three_resets (p : Params) (s : State) : Emptied (cycle p true (cycle p true (cycle p true s))) where
  pc := rfl
  ifid := rfl
  idex := by
    rw [cycle_reset_idex p rfl, idRead_bubble_idex_exmem p true rfl rfl]
  exmem := by
    obtain ⟨-, -, hC⟩ := fields_nopWord
    rw [cycle_exmem, nextEXMEM_bubble rfl, cycle_reset_idex p rfl, idRead_bubble_idex p true true rfl, hC]
  memwb := rfl

theorem emptied_of_resets (p : Params) (s : State) {n : Nat} (h : 3 ≤ n) : Emptied (cycles p true n s) := by
  obtain ⟨k, rfl⟩ := Nat.exists_eq_add_of_le' h
  rw [cycles_succ_end, cycles_succ_end, cycles_succ_end]
  exact emptied_of_three_resets p _

/-- In the cycle after, WB takes over the fields of MEM's bubble too. -/
theorem Emptied.memwb_cycle {s : State} (h : Emptied s) (p : Params) (rst : Bool) :
    (cycle p rst s).memwb = ⟨nopcw, 0x0000, (cycle p rst s).reg 0, 0, 0x0000⟩ := by
  have hreg : (cycle p rst s).reg 0 = s.reg 0 := congrArg (readReg · 0) (committedRegs_bubble h.memwb)
  rw [cycle_memwb, nextMEMWB_bubble p (by rw [h.exmem]), h.exmem, hreg]

/-- A further reset cycle has no effect that a program could see. -/
theorem Emptied.cycle_reset {s : State} (h : Emptied s) (p : Params) :
    (cycle p true s).flags = s.flags ∧ (cycle p true s).dmem = s.dmem ∧ (cycle p true s).calls = s.calls ∧
      (cycle p true s).regs = s.regs := by
  have hidex : s.idex.ctl = nopcw := by rw [h.idex]
  have hmem : memStage p s = (s.exmem.y, s) := memStage_bubble p (by rw [h.exmem])
  exact ⟨exFlags_bubble hidex, by rw [cycle_dmem, hmem], by rw [cycle_reset_calls, hmem], committedRegs_bubble h.memwb⟩

/-! ### The statements on reset -/

/-- Settles O53: what `reset()` answers is the plain run of its cycles, which empties the pipeline and fetches nothing. -/
theorem resetEmptiesThePipeline : Obligations.ResetEmptiesThePipeline := by
  intro c s t h
  obtain ⟨p, -, hcycles, rfl⟩ := resetSequence_eq_next h
  obtain ⟨hpc, hifid, hidex, hexmem, hmemwb⟩ := emptied_of_resets p s hcycles
  obtain ⟨himem, hcalls⟩ := resets_make_no_fetch p c.resetCycles s
  refine ⟨hpc, hifid, hidex, hexmem, hmemwb, fun hfour => ?_, rfl, himem, hcalls⟩
  obtain ⟨k, hk⟩ := Nat.exists_eq_add_of_le' hfour
  have hlast := (emptied_of_resets p s (Nat.le_add_left 3 k)).memwb_cycle p true
  rw [← cycles_succ_end] at hlast
  rw [hk]
  exact hlast

/-- Settles O54, by induction on the number of cycles: the third reset cycle commits what was in EX, and later ones add nothing. -/
theorem resetCompletesTheThreeOldest : Obligations.ResetCompletesTheThreeOldest := by
  intro p s n hn
  induction n, hn using Nat.le_induction with
  | base =>
    have hmem : memStage p (cycle p true (cycle p true s)) =
        ((cycle p true (cycle p true s)).exmem.y, cycle p true (cycle p true s)) := memStage_bubble p rfl
    refine ⟨?flags, ?dmem, ?calls, rfl⟩
    case flags =>
      calc exFlags (cycle p true (cycle p true s))
          = exFlags (cycle p true s) := exFlags_bubble rfl
        _ = exFlags s := exFlags_bubble rfl
    case dmem => exact (cycle_dmem p true _).trans (by rw [hmem, cycle_dmem])
    case calls => exact (cycle_reset_calls p _).trans (by rw [hmem, cycle_reset_calls])
  | succ n hn ih =>
    obtain ⟨hflags, hdmem, hcalls, hregs⟩ := (emptied_of_resets p s hn).cycle_reset p
    rw [cycles_succ_end, hflags, hdmem, hcalls, hregs]
    exact ih

/-- Settles O56: behind an answered `reset()` the hard reset puts the power-on state, with three fields of what `reset()` left. -/
theorem hardResetZeroesRegistersAndMemory : Obligations.HardResetZeroesRegistersAndMemory := by
  intro c s t h
  refine ⟨{ State.reset with flags := t.flags, imem := t.imem, calls := t.calls }, ?_,
    State.reset_reg, Memory.read_nil, rfl, rfl, rfl, rfl, rfl, rfl, rfl, rfl, rfl⟩
  rw [hardReset, h, andThen_next]

/-! ### Words of the spec -/

/-- A word that the encoder gives for an instruction decodes to it (30_encoding.md R94). -/
theorem decode_of_encode_eq {i : Instr} {w : Word} (h : encode i = w) : decode w = i := by
  rw [← h, decodeEncodeRoundTrip i]

/-- Settles O4: each word is the canonical one of its instruction. -/
theorem specWordsDecode : Obligations.SpecWordsDecode := by
  and_intros
  all_goals exact decode_of_encode_eq rfl

end Sys2Proof.Machine
end
